-- ==== Sys2Proof/Word.lean ====
section
/-!
DEFINITION. The word types of the core (R4, R12, R19, R55). All values are unsigned (00_scope.md section 4);
a `BitVec` is used where the spec numbers or slices bits.
-/

namespace Sys2Proof

/-- One character, or one byte of the loaded image (R63, R43). -/
abbrev Byte := BitVec 8

/-- The 16 shared address/data lines, a ROM word, one half of the address (`DATA_W` of R4). -/
abbrev Half := BitVec 16

/-- The transaction address (`ADDR_W` of R4, R14). -/
abbrev Addr := BitVec 32

/-- A log record: an (address, data) pair packed as a 48-bit unit (R19, R48). -/
abbrev Record := BitVec 48

/-- `IW`, one tick's bus inputs (R55). -/
abbrev InputWord := BitVec 20

/-- `DW`, one tick's bus inputs and the previous read sample (R55). -/
abbrev DecodeWord := BitVec 21

/-- A state code of the report machine (R59), a `TW` or a `GW` (30_encoding.md section 3). -/
abbrev Nibble := BitVec 4

end Sys2Proof
end

