-- ==== Sys2Proof/Config.lean ====
section
/-!
DEFINITION. The configuration parameters of the core (R4), and the values the spec leaves open: opaque constants
with no body, so that nothing can be proved about them but what holds of every value.
-/

namespace Sys2Proof

/-- The order of a latch write and an increment in one tick: the spec names the parameter `ADDR_COLLISION` and gives
it one value for this hardware (R4, R84, decision D4). -/
inductive AddrCollision where
  | latchOverIncrement
deriving DecidableEq, Repr

/-- The parameters of R4. `BANNER_LEN` and `ROM_WORDS` are the lengths of the two lists; `IDX_BITS`, `IDX_DIGITS` and
`REC_LEN` are derived (Machine/Widths.lean). Nothing is checked here: R5 is `Params.wf` (WellFormed.lean). -/
structure Params where
  /-- `CAP`, the log's capacity in records. -/
  cap : Nat
  /-- `SKIP`, the warm-up skip count. -/
  skip : Nat
  /-- `D_CHAR`, the inter-character delay in ticks. -/
  dChar : Nat
  /-- `D_REC`, the inter-record delay in ticks. -/
  dRec : Nat
  /-- `T_FULL`, the timeout of `wait_full` in ticks. -/
  tFull : Nat
  /-- `BANNER`, bytes (R64). -/
  banner : List Byte
  /-- `ROM`, the loaded image (R42). -/
  rom : List Half
  /-- `ROM_MASK`. -/
  romMask : Addr
  /-- `ROM_SIGNATURE`, what word 0 of the image must be (R150). -/
  romSignature : Half
  /-- `TX_DIV`, ticks per serial bit of the reference transmitter (R136). -/
  txDiv : Nat
  /-- `ADDR_COLLISION`. -/
  addrCollision : AddrCollision
deriving DecidableEq, Repr

/-- `BANNER_LEN`. -/
def Params.bannerLen (p : Params) : Nat := p.banner.length

/-- `ROM_WORDS`. -/
def Params.romWords (p : Params) : Nat := p.rom.length

/-! ### Free values (log entries 2, 3, 10, 18)

The spec gives no value for these ("not in source: parameter", R4; "any value", 93_implementation_defined.md). -/

/-- `SKIP` of the hardware. -/
opaque Config.hwSkip : Nat
/-- `D_CHAR` of the hardware, less the 1 that R5 asks for. -/
opaque Config.hwDCharExtra : Nat
/-- `D_REC` of the hardware, less 1. -/
opaque Config.hwDRecExtra : Nat
/-- `T_FULL` of the hardware. -/
opaque Config.hwTFull : Nat
/-- The first banner byte of the hardware. -/
opaque Config.hwBannerFirst : Byte
/-- The other banner bytes of the hardware. -/
opaque Config.hwBannerRest : List Byte
/-- Word 0 of the hardware's image. -/
opaque Config.hwRomFirst : Half
/-- The other words of the hardware's image. -/
opaque Config.hwRomRest : List Half
/-- `ROM_MASK` of the hardware, before it is brought under the image's span (every mask R5 admits is below twice
`ROM_WORDS`, and so is its own value here). -/
opaque Config.hwMaskRaw : Nat
/-- `TX_DIV` of the hardware, less 1. -/
opaque Config.hwTxDivExtra : Nat

/-- The bus inputs of a tick after the stimulus has ended (R12, R69; log entry 3). -/
opaque Config.freeInput : Nat → InputWord
/-- The character at an index outside the banner or the record line (log entry 10). -/
opaque Config.freeChar : Nat → Byte
/-- The serial line of a transmitter other than the reference one (R134; log entry 18). -/
opaque Config.freeLine : Nat → Bool

/-- The parameters of this hardware: `CAP` = 256 is the spec's, the rest are free values that meet R5 and R150
(WellFormed.lean proves it); `ROM_SIGNATURE` is word 0, since a hardware that runs has passed its check. -/
def Config.hardwareParams : Params where
  cap := 256
  skip := Config.hwSkip
  dChar := Config.hwDCharExtra + 1
  dRec := Config.hwDRecExtra + 1
  tFull := Config.hwTFull
  banner := Config.hwBannerFirst :: Config.hwBannerRest
  rom := Config.hwRomFirst :: Config.hwRomRest
  romMask := BitVec.ofNat 32 (Config.hwMaskRaw % (2 * (Config.hwRomRest.length + 1)))
  romSignature := Config.hwRomFirst
  txDiv := Config.hwTxDivExtra + 1
  addrCollision := .latchOverIncrement

end Sys2Proof
end

