-- ==== Sys2Proof/Syntax.lean ====
section
/-!
DEFINITION. The rows of spec/opcode_table.json, one constructor each, and the statements of a tick script (R68).
The core runs no instruction stream (00_scope.md section 1): a row is what one decode group of one tick selects.
-/

namespace Sys2Proof

/-- One row of the opcode table. The two latch rows that write carry their operand `D` = `DW[19:4]` (R56, R57); no
other row has one. -/
inductive Instr where
  /-- LATCH_HI (R80) -/
  | latchHi (d : Half)
  /-- LATCH_LO (R81) -/
  | latchLo (d : Half)
  /-- LATCH_NONE (R82) -/
  | latchNone
  /-- RD_IDLE (R91) -/
  | rdIdle
  /-- RD_RISE (R90) -/
  | rdRise
  /-- RD_HOLD (R90) -/
  | rdHold
  /-- RD_FALL (R100) -/
  | rdFall
  /-- ST_SEND_INITIAL_CHAR (R114) -/
  | stSendInitialChar
  /-- ST_INIT_WAIT_ACK (R115) -/
  | stInitWaitAck
  /-- ST_INITIAL_WAIT (R116) -/
  | stInitialWait
  /-- ST_WAIT_FULL (R117) -/
  | stWaitFull
  /-- ST_SEND_CHAR (R118) -/
  | stSendChar
  /-- ST_WAIT_ACK (R119) -/
  | stWaitAck
  /-- ST_WAIT (R120) -/
  | stWait
  /-- ST_ACTUAL_DELAY (R121) -/
  | stActualDelay
  /-- ST_DONE (R122) -/
  | stDone
  /-- TX_IDLE (R135) -/
  | txIdle
  /-- TX_ACCEPT (R135) -/
  | txAccept
  /-- TX_HOLD_BIT (R136) -/
  | txHoldBit
  /-- TX_NEXT_BIT (R136) -/
  | txNextBit
  /-- TX_FRAME_END (R138) -/
  | txFrameEnd
  /-- CAPTURE_NONE (R100) -/
  | captureNone
  /-- CAPTURE_GATED (R101) -/
  | captureGated
  /-- CAPTURE_SKIP (R102) -/
  | captureSkip
  /-- CAPTURE_APPEND (R103) -/
  | captureAppend
  /-- CAPTURE_DROP (R104) -/
  | captureDrop
deriving DecidableEq, Repr

/-- The row's mnemonic in spec/opcode_table.json. -/
def Instr.mnemonic : Instr → String
  | .latchHi _ => "LATCH_HI"
  | .latchLo _ => "LATCH_LO"
  | .latchNone => "LATCH_NONE"
  | .rdIdle => "RD_IDLE"
  | .rdRise => "RD_RISE"
  | .rdHold => "RD_HOLD"
  | .rdFall => "RD_FALL"
  | .stSendInitialChar => "ST_SEND_INITIAL_CHAR"
  | .stInitWaitAck => "ST_INIT_WAIT_ACK"
  | .stInitialWait => "ST_INITIAL_WAIT"
  | .stWaitFull => "ST_WAIT_FULL"
  | .stSendChar => "ST_SEND_CHAR"
  | .stWaitAck => "ST_WAIT_ACK"
  | .stWait => "ST_WAIT"
  | .stActualDelay => "ST_ACTUAL_DELAY"
  | .stDone => "ST_DONE"
  | .txIdle => "TX_IDLE"
  | .txAccept => "TX_ACCEPT"
  | .txHoldBit => "TX_HOLD_BIT"
  | .txNextBit => "TX_NEXT_BIT"
  | .txFrameEnd => "TX_FRAME_END"
  | .captureNone => "CAPTURE_NONE"
  | .captureGated => "CAPTURE_GATED"
  | .captureSkip => "CAPTURE_SKIP"
  | .captureAppend => "CAPTURE_APPEND"
  | .captureDrop => "CAPTURE_DROP"

/-- The five formats of the opcode table: which word a row decodes. -/
inductive Format where
  /-- bits 1:0 of `DW` (R57) -/
  | latch
  /-- bits 20 and 2 of `DW` (R58) -/
  | strobe
  /-- the state code `st` (R59) -/
  | fsmState
  /-- `TW` = {tx_busy, tx_ready, cnt_end, bit_end} (30_encoding.md section 3) -/
  | txState
  /-- `GW` = {fell, write_phase, skip_nz, room} (30_encoding.md section 3) -/
  | logStep
deriving DecidableEq, Repr

/-- The format column of the opcode table. -/
def Instr.format : Instr → Format
  | .latchHi _ | .latchLo _ | .latchNone => .latch
  | .rdIdle | .rdRise | .rdHold | .rdFall => .strobe
  | .stSendInitialChar | .stInitWaitAck | .stInitialWait | .stWaitFull | .stSendChar | .stWaitAck
  | .stWait | .stActualDelay | .stDone => .fsmState
  | .txIdle | .txAccept | .txHoldBit | .txNextBit | .txFrameEnd => .txState
  | .captureNone | .captureGated | .captureSkip | .captureAppend | .captureDrop => .logStep

/-- A statement of a tick script (R68). -/
inductive Stmt where
  /-- `W <hhhhh>` (n = 1) and `W <hhhhh> * <n>` -/
  | word (iw : InputWord) (n : Nat)
  /-- `IDLE <n>` -/
  | idle (n : Nat)
  /-- `LHI <hhhh>` -/
  | lhi (h : Half)
  /-- `LLO <hhhh>` -/
  | llo (h : Half)
  /-- `LATCH <hhhhhhhh>` -/
  | latch (a : Addr)
  /-- `READ <n>` -/
  | read (n : Nat)
deriving DecidableEq, Repr

end Sys2Proof
end

