-- ==== Sys2Proof/WellFormed.lean ====
section
/-!
DEFINITION. What is well-formed: the parameters (R5), the loaded image's signature (R150), a script's statements
(R68). Every term of `Instr` is well-formed: its only operand is a 16-bit word by its type.
-/

namespace Sys2Proof

/-- `CAP >= 1` (R5). -/
def Params.capOk (p : Params) : Bool := decide (1 ≤ p.cap)
/-- `D_CHAR >= 1` (R5). -/
def Params.dCharOk (p : Params) : Bool := decide (1 ≤ p.dChar)
/-- `D_REC >= 1` (R5). -/
def Params.dRecOk (p : Params) : Bool := decide (1 ≤ p.dRec)
/-- `BANNER_LEN >= 1` (R5; that every element is a byte is its type). -/
def Params.bannerOk (p : Params) : Bool := decide (1 ≤ p.bannerLen)
/-- `ROM_WORDS >= 1` (R5). -/
def Params.romOk (p : Params) : Bool := decide (1 ≤ p.romWords)
/-- `(ROM_MASK >> 1) < ROM_WORDS` (R5, decision D6). -/
def Params.maskOk (p : Params) : Bool := decide ((p.romMask >>> 1).toNat < p.romWords)
/-- `TX_DIV >= 1` (R5). -/
def Params.txDivOk (p : Params) : Bool := decide (1 ≤ p.txDiv)

/-- R5. `SKIP >= 0` and `T_FULL >= 0` hold of every Nat. -/
def Params.wf (p : Params) : Bool :=
  p.capOk && p.dCharOk && p.dRecOk && p.bannerOk && p.romOk && p.maskOk && p.txDivOk

/-- R150: word 0 of the image is `ROM_SIGNATURE`. -/
def Params.signatureOk (p : Params) : Bool := decide (p.rom[0]? = some p.romSignature)

/-- A configuration that a run may have: it passed both checks of power-on (R170 steps 1 and 2). -/
def Params.accepted (p : Params) : Bool := p.wf && p.signatureOk

/-- An accepted configuration. "A configuration that breaks one of these is refused: the model has no run for it" (R5):
a refused one cannot stand in a state, and `powerOn` is where it is refused (log entry 1). -/
structure Config where
  params : Params
  ok : params.accepted = true
deriving DecidableEq, Repr

theorem Config.hardwareParams_accepted : Config.hardwareParams.accepted = true := by
  have h : Config.hwMaskRaw % (2 * (Config.hwRomRest.length + 1)) < 2 * (Config.hwRomRest.length + 1) :=
    Nat.mod_lt _ (by omega)
  have h2 := Nat.mod_le (Config.hwMaskRaw % (2 * (Config.hwRomRest.length + 1))) (2 ^ 32)
  have h3 : (Config.hwMaskRaw % (2 * (Config.hwRomRest.length + 1))) % 2 ^ 32 / 2
      < Config.hwRomRest.length + 1 := by omega
  simp only [Params.accepted, Params.wf, Params.signatureOk, Params.capOk, Params.dCharOk, Params.dRecOk,
    Params.bannerOk, Params.romOk, Params.maskOk, Params.txDivOk, Config.hardwareParams, Params.bannerLen,
    Params.romWords, List.length_cons, BitVec.toNat_ushiftRight, BitVec.toNat_ofNat, Nat.shiftRight_eq_div_pow,
    Nat.pow_one, decide_eq_true h3]
  simp

/-- The configuration of this hardware (log entry 2). -/
def Config.hardware : Config := ⟨Config.hardwareParams, Config.hardwareParams_accepted⟩

/-- A script statement is well-formed when its repeat count is at least 1 (R68: "`n >= 1`"; `IDLE n` is `W 00000 * n`). -/
def Stmt.wf : Stmt → Bool
  | .word _ n => decide (1 ≤ n)
  | .idle n => decide (1 ≤ n)
  | .lhi _ => true
  | .llo _ => true
  | .latch _ => true
  | .read n => decide (1 ≤ n)

end Sys2Proof
end

