-- ==== Sys2Proof/Decode.lean ====
section
/-!
DEFINITION. Decoding, total on any word of any of the five formats and rejecting by name, and after it the encoder,
from the same columns of the opcode table (30_encoding.md, spec/opcode_table.json).
-/

namespace Sys2Proof

/-- Why a word is no row: it has bits above its format's width, or it is a state code that names no state (R60).
Raised by `decode`; the machine itself meets only the second, in `reportSide`, and goes on (log entry 7). -/
inductive DecodeError where
  | wordTooWide (f : Format) (w : Nat)
  | reservedStateCode (c : Nibble)
deriving DecidableEq, Repr

/-- The bits of a format's word (the table's width column). -/
def Format.width : Format → Nat
  | .latch | .strobe => 21
  | .fsmState | .txState | .logStep => 4

/-! ### The decode groups -/

/-- The operand `D` = `DW[19:4]` (R55). -/
def dwOperand (dw : DecodeWord) : Half := dw.extractLsb' 4 16

/-- The latch group: `P` = bit 0, `S` = bit 1 (R57). -/
def decodeLatch (dw : DecodeWord) : Instr :=
  match dw.getLsbD 0, dw.getLsbD 1 with
  | true, true => .latchHi (dwOperand dw)
  | true, false => .latchLo (dwOperand dw)
  | false, _ => .latchNone

/-- The strobe group: `Q` = bit 20, `R` = bit 2 (R58). -/
def decodeStrobe (dw : DecodeWord) : Instr :=
  match dw.getLsbD 20, dw.getLsbD 2 with
  | false, false => .rdIdle
  | false, true => .rdRise
  | true, true => .rdHold
  | true, false => .rdFall

/-- The codes of the report state machine (R59); codes 9 to 15 name no state (R60). -/
def decodeFsm (c : Nibble) : Except DecodeError Instr :=
  match c.toNat with
  | 0 => .ok .stSendInitialChar
  | 1 => .ok .stInitWaitAck
  | 2 => .ok .stInitialWait
  | 3 => .ok .stWaitFull
  | 4 => .ok .stSendChar
  | 5 => .ok .stWaitAck
  | 6 => .ok .stWait
  | 7 => .ok .stActualDelay
  | 8 => .ok .stDone
  | _ => .error (.reservedStateCode c)

/-- The transmitter's decode of the four bits of `TW`; `tx_ready` is not decoded while `tx_busy` = 1 (R140). -/
def decodeTx (busy ready cntEnd bitEnd : Bool) : Instr :=
  match busy with
  | false => match ready with
    | false => .txIdle
    | true => .txAccept
  | true => match cntEnd with
    | false => .txHoldBit
    | true => match bitEnd with
      | false => .txNextBit
      | true => .txFrameEnd

/-- The log step's decode of the four bits of `GW`. -/
def decodeLog (fell writePhase skipNz room : Bool) : Instr :=
  match fell with
  | false => .captureNone
  | true => match writePhase with
    | false => .captureGated
    | true => match skipNz with
      | true => .captureSkip
      | false => match room with
        | true => .captureAppend
        | false => .captureDrop

/-- The row of format `f` that the word `w` selects. -/
def decode (f : Format) (w : Nat) : Except DecodeError Instr :=
  if w < 2 ^ f.width then
    match f with
    | .latch => .ok (decodeLatch (BitVec.ofNat 21 w))
    | .strobe => .ok (decodeStrobe (BitVec.ofNat 21 w))
    | .fsmState => decodeFsm (BitVec.ofNat 4 w)
    | .txState => .ok (decodeTx (w.testBit 3) (w.testBit 2) (w.testBit 1) (w.testBit 0))
    | .logStep => .ok (decodeLog (w.testBit 3) (w.testBit 2) (w.testBit 1) (w.testBit 0))
  else .error (.wordTooWide f w)

/-! ### The host's entry point -/

/-- Which of its two formats a 21-bit word is read as, when one row must be answered (log entry 13): the latch row
where a latch row writes, else the strobe row where the strobe is or was high, else `LATCH_NONE` or `RD_IDLE` by `S`. -/
def tableFormatWide (dw : DecodeWord) : Format :=
  if dw.getLsbD 0 then .latch
  else if dw.getLsbD 2 || dw.getLsbD 20 then .strobe
  else if dw.getLsbD 1 then .latch
  else .strobe

/-- Which of its three formats a 4-bit word is read as, when one row must be answered (log entry 13): a state code
where it names a state, else `TX_NEXT_BIT` and `TX_FRAME_END` where their fixed bits stand with a clear don't-care
bit, else the log step. -/
def tableFormatNarrow (w : Nat) : Format :=
  if w ≤ 8 then .fsmState
  else if w = 10 ∨ w = 11 then .txState
  else .logStep

/-- The row a table word is read as. A decode word does not say which of the formats of its width it belongs to, and
the machine decodes it in every one of them each tick; this answers ONE of its rows (log entry 13). -/
def decodeTableWord (nbits w : Nat) : Option Instr :=
  if nbits = 24 then (decode (tableFormatWide (BitVec.ofNat 21 w)) w).toOption
  else if nbits = 8 then (decode (tableFormatNarrow w) w).toOption
  else none

/-! ### The encoder -/

/-- The match column of the opcode table. -/
def Instr.matchBits : Instr → Nat
  | .latchHi _ => 0x000003
  | .latchLo _ => 0x000001
  | .latchNone => 0x000000
  | .rdIdle => 0x000000
  | .rdRise => 0x000004
  | .rdHold => 0x100004
  | .rdFall => 0x100000
  | .stSendInitialChar => 0x0
  | .stInitWaitAck => 0x1
  | .stInitialWait => 0x2
  | .stWaitFull => 0x3
  | .stSendChar => 0x4
  | .stWaitAck => 0x5
  | .stWait => 0x6
  | .stActualDelay => 0x7
  | .stDone => 0x8
  | .txIdle => 0x0
  | .txAccept => 0x4
  | .txHoldBit => 0x8
  | .txNextBit => 0xA
  | .txFrameEnd => 0xB
  | .captureNone => 0x0
  | .captureGated => 0x8
  | .captureSkip => 0xE
  | .captureAppend => 0xD
  | .captureDrop => 0xC

/-- The mask column of the opcode table. -/
def Instr.maskBits : Instr → Nat
  | .latchHi _ => 0x000003
  | .latchLo _ => 0x000003
  | .latchNone => 0x000001
  | .rdIdle => 0x100004
  | .rdRise => 0x100004
  | .rdHold => 0x100004
  | .rdFall => 0x100004
  | .stSendInitialChar => 0xF
  | .stInitWaitAck => 0xF
  | .stInitialWait => 0xF
  | .stWaitFull => 0xF
  | .stSendChar => 0xF
  | .stWaitAck => 0xF
  | .stWait => 0xF
  | .stActualDelay => 0xF
  | .stDone => 0xF
  | .txIdle => 0xC
  | .txAccept => 0xC
  | .txHoldBit => 0xA
  | .txNextBit => 0xB
  | .txFrameEnd => 0xB
  | .captureNone => 0x8
  | .captureGated => 0xC
  | .captureSkip => 0xE
  | .captureAppend => 0xF
  | .captureDrop => 0xF

/-- The word `w` is one of the row's words: `w & mask = match`. -/
def Instr.rowMatches (i : Instr) (w : Nat) : Prop := w &&& i.maskBits = i.matchBits

/-- The operand bits of the row: `D` in bits 19:4 of a latch row that writes (R55). -/
def Instr.operandBits : Instr → Nat
  | .latchHi d => d.toNat * 16
  | .latchLo d => d.toNat * 16
  | _ => 0

/-- The word of the instruction in its format, with every bit its row does not fix and no operand uses at 0. -/
def encode (i : Instr) : Nat := i.matchBits + i.operandBits

end Sys2Proof
end

