-- ==== Sys2Proof/Machine/State.lean ====
section
/-!
DEFINITION. The state of the core (10_state.md), grouped by the component that writes each register (R146 of
47_tick_composition.md), the reasons a step can stop, and the state at power-on (R27).
-/

namespace Sys2Proof.Machine

/-- The log storage: (index, record) cells in one canonical form, indices strictly rising. An index that is not listed
has no value (R27, R46): log entry 6. -/
abbrev Memory := List (Nat × Record)

/-- The registers of the log buffer (R16, R17, R19); only the log step writes them. -/
structure LogRegs where
  skip : Nat
  wp : Nat
  cells : Memory
deriving DecidableEq, Repr

/-- The registers of the report state machine (R18, R20 to R24). `st` is the 4-bit code of R59. -/
structure ReportRegs where
  st : Nibble
  cidx : Nat
  dly : Nat
  tmo : Nat
  rp : Nat
  txReady : Bool
  txData : Byte
deriving DecidableEq, Repr

/-- The registers of the serial transmitter (R25). -/
structure TxRegs where
  busy : Bool
  frame : BitVec 10
  bit : Fin 10
  cnt : Nat
  ack : Bool
deriving DecidableEq, Repr

/-- The shared lines as the core drives them: released (`ad_oe` = 0, and `ad_out` has no meaning, R91) or driven with a
word (`ad_oe` = 1, R90). -/
inductive BusOut where
  | released
  | driven (w : Half)
deriving DecidableEq, Repr

/-- The outputs of R13 as they were in the tick just run (log entry 5). -/
structure Lines where
  bus : BusOut
  txLine : Bool
deriving DecidableEq, Repr

/-- The core. `cfg` is the configuration, constant through a run (R26, log entry 1); `inputs` the bus inputs of the
coming ticks, oldest first (log entry 3); `tick` the model's own counter, which only picks free values (log entry 4). -/
structure State where
  cfg : Config
  inputs : List InputWord
  tick : Nat
  rdPrev : Bool
  addr : Addr
  log : LogRegs
  rep : ReportRegs
  tx : TxRegs
  lines : Lines
deriving DecidableEq, Repr

/-- The parameters of the state's configuration. -/
abbrev State.par (s : State) : Params := s.cfg.params

/-- Why the machine stops with a fault (R155). No run from power-on reaches either. -/
inductive Fault where
  /-- `LogRead` of a record nothing has written: "a model faults on it" (R46). Raised by ST_SEND_CHAR. Safe. -/
  | unwrittenLogRead
  /-- `tx_ready` = 1 while the reference transmitter is busy: "a model that reaches it records a fault against the
  core's contract" (R140). Raised by TX_HOLD_BIT, TX_NEXT_BIT and TX_FRAME_END, and by the abstract transmitter
  (R133). Safe. -/
  | readyWhileBusy
deriving DecidableEq, Repr

/-- Why there is no run, or no meaning. -/
inductive Refusal where
  /-- An instruction without a meaning, by its mnemonic. Raised by an arm of `exec`, and no arm does. Safe. -/
  | notModelled (mnemonic : String)
  /-- The configuration breaks R5. Raised by `powerOn`. Safe: the spec refuses it too. -/
  | configurationRefused
  /-- Word 0 of the image is not `ROM_SIGNATURE`, the one fatal error (R150). Raised by `powerOn`. Safe: the spec
  refuses it too. -/
  | romSignatureMismatch
deriving DecidableEq, Repr

/-- Every register at its power-on value (R27), for an accepted configuration and a stimulus. -/
def State.init (c : Config) (inputs : List InputWord) : State where
  cfg := c
  inputs := inputs
  tick := 0
  rdPrev := false
  addr := 0x00000000#32
  log := { skip := c.params.skip, wp := 0, cells := [] }
  rep := { st := 0#4, cidx := 0, dly := 0, tmo := c.params.tFull, rp := 0, txReady := false, txData := 0x00#8 }
  tx := { busy := false, frame := 0x3FF#10, bit := 0, cnt := 0, ack := false }
  lines := { bus := .released, txLine := true }

/-- The core at power-on (R27): this hardware's configuration (log entry 2) and no stimulus placed (log entry 3). -/
def State.reset : State := State.init Config.hardware []

end Sys2Proof.Machine
end

