-- ==== Sys2Proof/Machine/Widths.lean ====
section
/-!
DEFINITION. The derived parameters of R4 and R61, and the widths of the counters (R16, R17, R27).
-/

namespace Sys2Proof.Machine

/-- The least `k` with `2^k >= n` (R4). -/
def clog2 (n : Nat) : Nat := if n ≤ 1 then 0 else Nat.log2 (n - 1) + 1

/-- `ceil(L/4)`, the hex digits of an `L`-bit field (R74). -/
def digitCount (L : Nat) : Nat := (L + 3) / 4

/-- `IDX_BITS` (R61). -/
def idxBits (p : Params) : Nat := max 1 (clog2 p.cap)

/-- `IDX_DIGITS` (R4). -/
def idxDigits (p : Params) : Nat := digitCount (idxBits p)

/-- `REC_LEN`, the characters of a record line (R4, R62). -/
def recLen (p : Params) : Nat := idxDigits p + 16

/-- Width of `skip` (R16). -/
def skipBits (p : Params) : Nat := max 1 (clog2 (p.skip + 1))

/-- Width of `wp` (R17). -/
def wpBits (p : Params) : Nat := clog2 (p.cap + 1)

/-- Width of `tmo` (R27). -/
def tmoBits (p : Params) : Nat := clog2 (p.tFull + 1)

/-- Width of `tx_cnt` (R27). -/
def cntBits (p : Params) : Nat := max 1 (clog2 p.txDiv)

end Sys2Proof.Machine
end

