-- ==== Sys2Proof/Machine/HexText.lean ====
section
/-!
DEFINITION. The hex encoder (41_hex_encoder.md), standard hex parsing (R78), and the packing of a record (R48).
-/

namespace Sys2Proof.Machine

/-- `DIGIT[k]`, the `k`-th character of `0123456789abcdef` (R75). -/
def hexDigit (k : Nat) : Byte := if k < 10 then BitVec.ofNat 8 (0x30 + k) else BitVec.ofNat 8 (0x61 + (k - 10))

/-- The low `n` nibbles of `v`, most significant first (R74). -/
def hexDigits : Nat → Nat → List Byte
  | 0, _ => []
  | n + 1, v => hexDigit (v / 16 ^ n % 16) :: hexDigits n v

/-- `hex(v, L)` (R74), for `v < 2^L`; log entry 17. -/
def hex (v L : Nat) : List Byte := hexDigits (digitCount L) v

/-- The value of one hex digit, of either case. -/
def parseHexDigit (c : Byte) : Option Nat :=
  if 0x30 ≤ c.toNat ∧ c.toNat ≤ 0x39 then some (c.toNat - 0x30)
  else if 0x61 ≤ c.toNat ∧ c.toNat ≤ 0x66 then some (c.toNat - 0x61 + 10)
  else if 0x41 ≤ c.toNat ∧ c.toNat ≤ 0x46 then some (c.toNat - 0x41 + 10)
  else none

/-- Base-16 parsing with the digits read so far in `acc`. -/
def parseHexFrom (acc : Nat) : List Byte → Option Nat
  | [] => some acc
  | c :: cs => match parseHexDigit c with
    | some d => parseHexFrom (acc * 16 + d) cs
    | none => none

/-- Standard hex parsing of a field's text (R78). -/
def parseHex (cs : List Byte) : Option Nat := parseHexFrom 0 cs

/-- `record(a, d) = {a[31:0], d[15:0]}` (R48). -/
def record (a : Addr) (d : Half) : Record := a ++ d

/-- `rec_addr(v) = v[47:16]` (R48). -/
def recAddr (v : Record) : Addr := v.extractLsb' 16 32

/-- `rec_data(v) = v[15:0]` (R48). -/
def recData (v : Record) : Half := v.extractLsb' 0 16

/-- `line(i, v)` (R62): index, space, address, space, data, carriage return, line feed. -/
def recordLine (p : Params) (i : Nat) (v : Record) : List Byte :=
  hex i (idxBits p) ++ [0x20#8] ++ hex (recAddr v).toNat 32 ++ [0x20#8] ++ hex (recData v).toNat 16
    ++ [0x0D#8, 0x0A#8]

end Sys2Proof.Machine
end

