-- ==== Sys2Proof/Machine/Ops.lean ====
section
/-!
DEFINITION. The shared operations: sequencing of outcomes, the ROM (20_memory.md section 2), the log storage
(section 3), the address register (42_address_reconstructor.md), and the core's one exception: the fatal error of
power-on (R150) and power-on itself (R170). There is no run-time exception entry and no return from one (R155).
-/

namespace Sys2Proof.Machine

/-- The outcome of `k` on the next state of `o`; a fault or a refusal of `o` stands. -/
def andThen (o : Host.Outcome State Fault Refusal) (k : State → Host.Outcome State Fault Refusal) :
    Host.Outcome State Fault Refusal :=
  match o with
  | .next s => k s
  | .fault r => .fault r
  | .refused r => .refused r

/-! ### The ROM -/

/-- `rom_index(a) = (a & ROM_MASK) >> 1` (R44). -/
def romIndex (p : Params) (a : Addr) : Nat := ((a &&& p.romMask) >>> 1).toNat

/-- `RomRead(i)`: the word at index `i`, for `i < ROM_WORDS` (R44). -/
def romRead (p : Params) (i : Nat) : Option Half := p.rom[i]?

/-- "Rule R5 guarantees `rom_index(a) < ROM_WORDS` for every `a`" (R44). -/
theorem romIndex_lt (c : Config) (a : Addr) : romIndex c.params a < c.params.rom.length := by
  have hm : (c.params.romMask >>> 1).toNat < c.params.rom.length := by
    have h := c.ok
    simp only [Params.accepted, Params.wf, Params.maskOk, Params.romWords, Bool.and_eq_true] at h
    exact of_decide_eq_true h.1.1.2
  have hle : (a &&& c.params.romMask).toNat ≤ c.params.romMask.toNat := by
    rw [BitVec.toNat_and]; exact Nat.and_le_right
  have : romIndex c.params a ≤ (c.params.romMask >>> 1).toNat := by
    simp only [romIndex, BitVec.toNat_ushiftRight, Nat.shiftRight_eq_div_pow]
    exact Nat.div_le_div_right hle
  omega

/-- `RomRead(rom_index(a))`, a word for every address (R44, R95). -/
def romWord (c : Config) (a : Addr) : Half := c.params.rom[romIndex c.params a]'(romIndex_lt c a)

/-- `{b[2i+1], b[2i]}`: the byte at the lower offset is bits 7:0 (R43). -/
def littleEndianWord (lo hi : Byte) : Half := hi ++ lo

/-- The words of a byte sequence, little-endian (R43). A lone last byte makes no word (log entry 16). -/
def wordsOfBytes : List Byte → List Half
  | lo :: hi :: bs => littleEndianWord lo hi :: wordsOfBytes bs
  | _ => []

/-- The loaded image: the words of the byte sequence, cut to a window of `n` words (R42, R43). DESIGN CHOICE (log entry
22): a byte sequence of fewer words is neither padded nor refused for it; its words are the image. -/
def loadRom (n : Nat) (bytes : List Byte) : List Half := (wordsOfBytes bytes).take n

/-! ### The log storage -/

/-- What an index that is not listed reads as: no value (R27, R46). -/
def Memory.unlisted : Option Record := none

/-- The value at an index of a cell list. -/
def Memory.read : Memory → Nat → Option Record
  | [], _ => Memory.unlisted
  | (j, v) :: m, i => if i = j then some v else Memory.read m i

/-- The cell list with `v` at index `i`, in its place. -/
def Memory.write : Memory → Nat → Record → Memory
  | [], i, v => [(i, v)]
  | (j, u) :: m, i, v =>
    if i < j then (i, v) :: (j, u) :: m
    else if i = j then (i, v) :: m
    else (j, u) :: Memory.write m i v

/-- The canonical form: indices strictly rising. (No cell can equal what an unlisted index reads as: that is no
value.) -/
abbrev Memory.wf (m : Memory) : Prop := (m.map Prod.fst).Pairwise (· < ·)

/-- `LogRead(i)`, for `i < CAP` (R46): no value where nothing was written, and no index outside the log space. -/
def logRead (p : Params) (m : Memory) (i : Nat) : Option Record :=
  if i < p.cap then Memory.read m i else none

/-- `LogWrite(i, v)`, for `i < CAP` (R47): all 48 bits in one step. The log space has no other index (R40), so nothing is
written there (log entry 11). -/
def logWrite (p : Params) (m : Memory) (i : Nat) (v : Record) : Memory :=
  if i < p.cap then Memory.write m i v else m

/-! ### The address register -/

/-- `addr[31:16] <- d` (R80). -/
def setHigh (a : Addr) (d : Half) : Addr := d ++ a.extractLsb' 0 16

/-- `addr[15:0] <- d` (R81). -/
def setLow (a : Addr) (d : Half) : Addr := a.extractLsb' 16 16 ++ d

/-- `addr + 2`, modulo 2^32 (R83). -/
def advance (a : Addr) : Addr := a + 2#32

/-! ### Power-on -/

/-- The fatal error (R150): no run exists. -/
def raiseFatal : Host.Outcome State Fault Refusal := .refused .romSignatureMismatch

/-- The cause code of a refusal, where it has one: `ROM_SIGNATURE_MISMATCH` is 1 (R150, decision D27). -/
def causeCode : Refusal → Option Nat
  | .romSignatureMismatch => some 1
  | _ => none

/-- Power-on (R170): the configuration is checked against R5, the image's first word against the signature, and then
every register takes its value of R27. -/
def powerOn (p : Params) (inputs : List InputWord) : Host.Outcome State Fault Refusal :=
  if h : p.wf = true then
    if hs : p.signatureOk = true then
      .next (State.init ⟨p, by simp [Params.accepted, h, hs]⟩ inputs)
    else raiseFatal
  else .refused .configurationRefused

/-- Power-on from the loaded byte sequence (R43, R170): the image is loaded through a window of `n` words, and then
power-on. DESIGN CHOICE (log entry 22): `ROM_WORDS` is the number of words loaded, fewer than `n` for a short byte
sequence, and R5 is checked against that number, so the check comes after the load. -/
def powerOnImage (p : Params) (n : Nat) (bytes : List Byte) (inputs : List InputWord) :
    Host.Outcome State Fault Refusal :=
  powerOn { p with rom := loadRom n bytes } inputs

end Sys2Proof.Machine
end

