-- ==== Sys2Proof/Machine/Flags.lean ====
section
/-!
DEFINITION. The derived conditions, which have no storage (R29, R70), the state codes (R59) and the packed decode
words `DW`, `TW`, `GW` (R55, 30_encoding.md section 3).
-/

namespace Sys2Proof.Machine

/-! ### The state codes (R59) -/

abbrev St.sendInitialChar : Nibble := 0b0000#4
abbrev St.initWaitAck : Nibble := 0b0001#4
abbrev St.initialWait : Nibble := 0b0010#4
abbrev St.waitFull : Nibble := 0b0011#4
abbrev St.sendChar : Nibble := 0b0100#4
abbrev St.waitAck : Nibble := 0b0101#4
abbrev St.wait : Nibble := 0b0110#4
abbrev St.actualDelay : Nibble := 0b0111#4
abbrev St.done : Nibble := 0b1000#4

/-- `write_phase(st)` (R29). -/
def writePhase (st : Nibble) : Bool :=
  st == St.sendInitialChar || st == St.initWaitAck || st == St.initialWait || st == St.waitFull

/-- `read_phase(st) = not write_phase(st)` (R29). -/
def readPhase (st : Nibble) : Bool := !writePhase st

/-! ### This tick's inputs (R12, R55) -/

/-- `IW` of the tick about to run: the head of the stimulus, and a free value once it has ended (log entry 3). -/
def inputWord (s : State) : InputWord :=
  match s.inputs with
  | iw :: _ => iw
  | [] => Config.freeInput s.tick

/-- `ale_p`, bit 0. -/
def aleP (s : State) : Bool := (inputWord s).getLsbD 0
/-- `ale_s`, bit 1. -/
def aleS (s : State) : Bool := (inputWord s).getLsbD 1
/-- `rd`, bit 2. -/
def rd (s : State) : Bool := (inputWord s).getLsbD 2
/-- `wr`, bit 3; nothing reads it (R45). -/
def wr (s : State) : Bool := (inputWord s).getLsbD 3
/-- `ad_in`, bits 19:4. -/
def adIn (s : State) : Half := (inputWord s).extractLsb' 4 16

/-- `DW`: the input word, with `rd_prev` in bit 20 (R55). -/
def decodeWord (s : State) : DecodeWord := BitVec.ofBool s.rdPrev ++ inputWord s

/-! ### Conditions -/

/-- `fell = rd_prev & ~rd` (R70). -/
def fell (s : State) : Bool := s.rdPrev && !rd s

/-- `rose = ~rd_prev & rd` (R70); it has no consumer (R72). -/
def rose (s : State) : Bool := !s.rdPrev && rd s

/-- `full = (wp == CAP)` (R29). -/
def full (s : State) : Bool := decide (s.log.wp = s.par.cap)

/-- `skip_nz = (skip > 0)` (30_encoding.md section 3). -/
def skipNz (s : State) : Bool := decide (0 < s.log.skip)

/-- `room = (wp < CAP)` (30_encoding.md section 3). -/
def room (s : State) : Bool := decide (s.log.wp < s.par.cap)

/-- `cnt_end = (tx_cnt == TX_DIV-1)` (30_encoding.md section 3). -/
def cntEnd (s : State) : Bool := decide (s.tx.cnt = s.par.txDiv - 1)

/-- `bit_end = (tx_bit == 9)` (30_encoding.md section 3). -/
def bitEnd (s : State) : Bool := decide (s.tx.bit = 9)

/-- `TW`. -/
def txWord (s : State) : Nibble :=
  BitVec.ofBool s.tx.busy ++ BitVec.ofBool s.rep.txReady ++ BitVec.ofBool (cntEnd s) ++ BitVec.ofBool (bitEnd s)

/-- `GW`. -/
def logWord (s : State) : Nibble :=
  BitVec.ofBool (fell s) ++ BitVec.ofBool (writePhase s.rep.st) ++ BitVec.ofBool (skipNz s) ++ BitVec.ofBool (room s)

/-- `tx_line = tx_busy ? tx_frame[tx_bit] : 1` (R139). -/
def txLine (s : State) : Bool := if s.tx.busy then s.tx.frame.getLsbD s.tx.bit.val else true

/-- `ad_oe` of a drive. -/
def BusOut.oe : BusOut → Bool
  | .released => false
  | .driven _ => true

/-- The character shown in a tick, at the character boundary: `tx_data` where `tx_ready` = 1 (R147). -/
def charShown (s : State) : Option Byte := if s.rep.txReady then some s.rep.txData else none

end Sys2Proof.Machine
end

