-- ==== Sys2Proof/Machine/Operands.lean ====
section
/-!
DEFINITION. The operands the rows read beside plain registers: the captured record (R105), the banner's and the
line's characters (R112, R113), the serial frame (R135, R137), the driven word (R90).
-/

namespace Sys2Proof.Machine

/-- What a captured read records: the address before the tick's increment and the ROM's word there (R105). -/
def captured (s : State) : Record := record s.addr (romWord s.cfg s.addr)

/-- The drive of a tick with `rd` = 1 (R90). -/
def romDrive (s : State) : BusOut := .driven (romWord s.cfg s.addr)

/-- `BANNER[cidx]` (R112); outside the banner, where no run comes, a free value (log entry 10). -/
def bannerChar (s : State) : Byte := (s.par.banner[s.rep.cidx]?).getD (Config.freeChar s.tick)

/-- `line(rp, v)[cidx]` (R113); outside the line, where no run comes, a free value (log entry 10). -/
def lineChar (s : State) (v : Record) : Byte :=
  ((recordLine s.par s.rep.rp v)[s.rep.cidx]?).getD (Config.freeChar s.tick)

/-- `{1'b1, tx_data[7:0], 1'b0}`: bit 0 start, bits 8:1 data, bit 9 stop (R135, R137). -/
def serialFrame (c : Byte) : BitVec 10 := 0b1#1 ++ c ++ 0b0#1

end Sys2Proof.Machine
end

