-- ==== Sys2Proof/Machine/Latch.lean ====
section
/-!
DEFINITION. The address reconstructor's rows (42_address_reconstructor.md). A row writes `addr` and nothing else; the
increment of the same tick is applied before it (R84, Machine/Tick.lean).
-/

namespace Sys2Proof.Machine

/-- LATCH_HI (R80): `addr[31:16] <- ad_in`; the low half keeps its value. -/
def execLatchHi (d : Half) (s : State) : Host.Outcome State Fault Refusal :=
  .next { s with addr := setHigh s.addr d }

/-- LATCH_LO (R81): `addr[15:0] <- ad_in`; the high half keeps its value. -/
def execLatchLo (d : Half) (s : State) : Host.Outcome State Fault Refusal :=
  .next { s with addr := setLow s.addr d }

/-- LATCH_NONE (R82): no latch write. -/
def execLatchNone (s : State) : Host.Outcome State Fault Refusal := .next s

end Sys2Proof.Machine
end

