-- ==== Sys2Proof/Machine/Report.lean ====
section
/-!
DEFINITION. The report state machine (45_report_fsm.md): one meaning per state. It reads `wp`, the log and `tx_ack`,
and writes its own registers only (R146).
-/

namespace Sys2Proof.Machine

/-- `tx_ready <- 0` (R111), in every state whose rule does not write it. -/
def quiet (r : ReportRegs) : ReportRegs := { r with txReady := false }

/-- A send: `tx_data <- c`, `tx_ready <- 1`, `st <- st'` (R114, R118). -/
def send (r : ReportRegs) (c : Byte) (st' : Nibble) : ReportRegs := { r with txData := c, txReady := true, st := st' }

/-- An acknowledge wait over a text of `len` characters (R115, R119): on the last character the index goes to 0 and the
machine to `last`; on another the index goes up and the machine to `more`; without an acknowledge it stays. -/
def awaitAck (r : ReportRegs) (ack : Bool) (len : Nat) (last more : Nibble) : ReportRegs :=
  if ack then
    if r.cidx = len - 1 then { quiet r with cidx := 0, st := last }
    else { quiet r with cidx := r.cidx + 1, st := more }
  else quiet r

/-- A delay of `ticks` ticks (R116, R120). -/
def holdDelay (r : ReportRegs) (ticks : Nat) (after : Nibble) : ReportRegs :=
  if r.dly = ticks - 1 then { quiet r with dly := 0, st := after } else { quiet r with dly := r.dly + 1 }

/-- The timeout of `wait_full` (R117). -/
def holdFull (r : ReportRegs) (isFull : Bool) : ReportRegs :=
  if isFull = true ∨ r.tmo = 0 then { quiet r with st := St.sendChar } else { quiet r with tmo := r.tmo - 1 }

/-- The inter-record delay, with the more-records test in its last tick (R121). -/
def holdRecord (r : ReportRegs) (ticks wp : Nat) : ReportRegs :=
  if r.dly = ticks - 1 then
    if r.rp + 1 < wp then { quiet r with dly := 0, rp := r.rp + 1, st := St.sendChar }
    else { quiet r with dly := 0, st := St.done }
  else { quiet r with dly := r.dly + 1 }

/-- `send_initial_char` (R114). -/
def execStSendInitialChar (s : State) : Host.Outcome State Fault Refusal :=
  .next { s with rep := send s.rep (bannerChar s) St.initWaitAck }

/-- `init_wait_ack` (R115). -/
def execStInitWaitAck (s : State) : Host.Outcome State Fault Refusal :=
  .next { s with rep := awaitAck s.rep s.tx.ack s.par.bannerLen St.waitFull St.initialWait }

/-- `initial_wait` (R116). -/
def execStInitialWait (s : State) : Host.Outcome State Fault Refusal :=
  .next { s with rep := holdDelay s.rep s.par.dChar St.sendInitialChar }

/-- `wait_full` (R117). -/
def execStWaitFull (s : State) : Host.Outcome State Fault Refusal :=
  .next { s with rep := holdFull s.rep (full s) }

/-- `send_char` (R118): with nothing captured, straight to `done`; else the next character of the current record's
line. A `LogRead` of a record nothing has written faults (R46). -/
def execStSendChar (s : State) : Host.Outcome State Fault Refusal :=
  if s.log.wp = 0 then .next { s with rep := { quiet s.rep with st := St.done } }
  else match logRead s.par s.log.cells s.rep.rp with
    | some v => .next { s with rep := send s.rep (lineChar s v) St.waitAck }
    | none => .fault .unwrittenLogRead

/-- `wait_ack` (R119). -/
def execStWaitAck (s : State) : Host.Outcome State Fault Refusal :=
  .next { s with rep := awaitAck s.rep s.tx.ack (recLen s.par) St.actualDelay St.wait }

/-- `wait` (R120). -/
def execStWait (s : State) : Host.Outcome State Fault Refusal :=
  .next { s with rep := holdDelay s.rep s.par.dChar St.sendChar }

/-- `actual_delay` (R121). -/
def execStActualDelay (s : State) : Host.Outcome State Fault Refusal :=
  .next { s with rep := holdRecord s.rep s.par.dRec s.log.wp }

/-- `done` (R122): no write but `tx_ready <- 0`. -/
def execStDone (s : State) : Host.Outcome State Fault Refusal := .next { s with rep := quiet s.rep }

end Sys2Proof.Machine
end

