-- ==== Sys2Proof/Machine/LogBuffer.lean ====
section
/-!
DEFINITION. The log step (44_log_buffer.md): the five rows of `GW`, each over one operation on the log's registers, and
the step that picks among them as R101 to R104 say, which RD_FALL takes (R100).
-/

namespace Sys2Proof.Machine

/-- R102: `skip <- skip - 1`, and no record is written. -/
def skipped (s : State) : LogRegs := { s.log with skip := s.log.skip - 1 }

/-- R103: the captured pair at `wp`, and `wp <- wp + 1`. With no room (R104's case) nothing is written (log entry 11). -/
def appended (s : State) : LogRegs :=
  if s.log.wp < s.par.cap then
    { s.log with cells := logWrite s.par s.log.cells s.log.wp (captured s), wp := s.log.wp + 1 }
  else s.log

/-- The log's registers after a captured read (R101 to R104). -/
def logStep (s : State) : LogRegs :=
  if writePhase s.rep.st then
    if 0 < s.log.skip then skipped s
    else if s.log.wp < s.par.cap then appended s
    else s.log
  else s.log

/-- CAPTURE_NONE (R100): no falling edge, no log step. -/
def execCaptureNone (s : State) : Host.Outcome State Fault Refusal := .next s

/-- CAPTURE_GATED (R101): a falling edge in the read phase; `skip`, `wp` and `log[]` keep their values. -/
def execCaptureGated (s : State) : Host.Outcome State Fault Refusal := .next s

/-- CAPTURE_SKIP (R102). -/
def execCaptureSkip (s : State) : Host.Outcome State Fault Refusal := .next { s with log := skipped s }

/-- CAPTURE_APPEND (R103, R105). -/
def execCaptureAppend (s : State) : Host.Outcome State Fault Refusal := .next { s with log := appended s }

/-- CAPTURE_DROP (R104): "no-op (buffer full; further captures are silently dropped)". -/
def execCaptureDrop (s : State) : Host.Outcome State Fault Refusal := .next s

end Sys2Proof.Machine
end

