-- ==== Sys2Proof/Machine/Strobe.lean ====
section
/-!
DEFINITION. The strobe rows: the bus output driver (43_rom_and_bus_output.md) and the captured read (R100). What a row
does to the lines stands in `lines.bus` (log entry 5). `rd_prev` is the edge detector's (R71, Machine/Tick.lean).
-/

namespace Sys2Proof.Machine

/-- The lines with the bus as given. -/
def setBus (s : State) (b : BusOut) : State := { s with lines := { s.lines with bus := b } }

/-- RD_IDLE (R91): the bus is released. -/
def execRdIdle (s : State) : Host.Outcome State Fault Refusal := .next (setBus s .released)

/-- RD_RISE (R90): the ROM's word at `addr` is driven from the first tick of the strobe on. -/
def execRdRise (s : State) : Host.Outcome State Fault Refusal := .next (setBus s (romDrive s))

/-- RD_HOLD (R90): the ROM's word at `addr` is driven. -/
def execRdHold (s : State) : Host.Outcome State Fault Refusal := .next (setBus s (romDrive s))

/-- RD_FALL (R100): "three things happen together": the log step (R101 to R104), `addr <- addr + 2` (R83), and the bus
release (R91). The log step reads the address before the increment (R105). -/
def execRdFall (s : State) : Host.Outcome State Fault Refusal :=
  .next { setBus s .released with log := logStep s, addr := advance s.addr }

end Sys2Proof.Machine
end

