-- ==== Sys2Proof/Machine/Transmit.lean ====
section
/-!
DEFINITION. The reference serial transmitter (46_serial_tx.md section 2, decision D22): one meaning per row of `TW`.
Each shows the line of its tick (R139) in `lines.txLine` (log entry 5).
-/

namespace Sys2Proof.Machine

/-- The transmitter's registers after a tick, and the line in it (R139). -/
def transmit (s : State) (r : TxRegs) : State := { s with tx := r, lines := { s.lines with txLine := txLine s } }

/-- A busy row. "A model that reaches [ready while busy] records a fault against the core's contract" (R140). -/
def transmitBusy (s : State) (r : TxRegs) : Host.Outcome State Fault Refusal :=
  if s.tx.busy && s.rep.txReady then .fault .readyWhileBusy else .next (transmit s r)

/-- TX_IDLE (R135): `tx_ack <- 0`. -/
def execTxIdle (s : State) : Host.Outcome State Fault Refusal := .next (transmit s { s.tx with ack := false })

/-- TX_ACCEPT (R135): the character is taken into the frame. -/
def execTxAccept (s : State) : Host.Outcome State Fault Refusal :=
  .next (transmit s { busy := true, frame := serialFrame s.rep.txData, bit := 0, cnt := 0, ack := false })

/-- TX_HOLD_BIT (R136): `tx_cnt <- tx_cnt + 1; tx_ack <- 0`. -/
def execTxHoldBit (s : State) : Host.Outcome State Fault Refusal :=
  transmitBusy s { s.tx with cnt := s.tx.cnt + 1, ack := false }

/-- TX_NEXT_BIT (R136): `tx_cnt <- 0; tx_bit <- tx_bit + 1; tx_ack <- 0`. -/
def execTxNextBit (s : State) : Host.Outcome State Fault Refusal :=
  transmitBusy s { s.tx with cnt := 0, bit := s.tx.bit + 1, ack := false }

/-- TX_FRAME_END (R138): `tx_cnt <- 0; tx_bit <- 0; tx_busy <- 0; tx_ack <- 1`. -/
def execTxFrameEnd (s : State) : Host.Outcome State Fault Refusal :=
  transmitBusy s { s.tx with cnt := 0, bit := 0, busy := false, ack := true }

end Sys2Proof.Machine
end

