-- ==== Sys2Proof/Machine/Dispatch.lean ====
section
/-! DEFINITION. One arm per row of the opcode table. -/

namespace Sys2Proof.Machine

def exec (i : Instr) (s : State) : Host.Outcome State Fault Refusal :=
  match i with
  | .latchHi d => Sys2Proof.Machine.execLatchHi d s
  | .latchLo d => Sys2Proof.Machine.execLatchLo d s
  | .latchNone => Sys2Proof.Machine.execLatchNone s
  | .rdIdle => Sys2Proof.Machine.execRdIdle s
  | .rdRise => Sys2Proof.Machine.execRdRise s
  | .rdHold => Sys2Proof.Machine.execRdHold s
  | .rdFall => Sys2Proof.Machine.execRdFall s
  | .stSendInitialChar => Sys2Proof.Machine.execStSendInitialChar s
  | .stInitWaitAck => Sys2Proof.Machine.execStInitWaitAck s
  | .stInitialWait => Sys2Proof.Machine.execStInitialWait s
  | .stWaitFull => Sys2Proof.Machine.execStWaitFull s
  | .stSendChar => Sys2Proof.Machine.execStSendChar s
  | .stWaitAck => Sys2Proof.Machine.execStWaitAck s
  | .stWait => Sys2Proof.Machine.execStWait s
  | .stActualDelay => Sys2Proof.Machine.execStActualDelay s
  | .stDone => Sys2Proof.Machine.execStDone s
  | .txIdle => Sys2Proof.Machine.execTxIdle s
  | .txAccept => Sys2Proof.Machine.execTxAccept s
  | .txHoldBit => Sys2Proof.Machine.execTxHoldBit s
  | .txNextBit => Sys2Proof.Machine.execTxNextBit s
  | .txFrameEnd => Sys2Proof.Machine.execTxFrameEnd s
  | .captureNone => Sys2Proof.Machine.execCaptureNone s
  | .captureGated => Sys2Proof.Machine.execCaptureGated s
  | .captureSkip => Sys2Proof.Machine.execCaptureSkip s
  | .captureAppend => Sys2Proof.Machine.execCaptureAppend s
  | .captureDrop => Sys2Proof.Machine.execCaptureDrop s

end Sys2Proof.Machine
end

