-- ==== Sys2Proof/Machine/Tick.lean ====
section
/-!
DEFINITION. The composition of one tick (47_tick_composition.md): the rows the tick decodes, each component run on the
start-of-tick values, and the commit of their disjoint writes (R10, R146).
-/

namespace Sys2Proof.Machine

/-- The row of the latch group (R57). -/
def latchRow (s : State) : Instr := decodeLatch (decodeWord s)

/-- The row of the strobe group (R58). -/
def strobeRow (s : State) : Instr := decodeStrobe (decodeWord s)

/-- The row of the report state machine, or the error of an unused code (R59, R60). -/
def fsmRow (s : State) : Except DecodeError Instr := decodeFsm s.rep.st

/-- The row of the transmitter (`TW`). -/
def txRow (s : State) : Instr := decodeTx s.tx.busy s.rep.txReady (cntEnd s) (bitEnd s)

/-- The row of the log step (`GW`); RD_FALL runs it as part of the captured read (R100). -/
def captureRow (s : State) : Instr := decodeLog (fell s) (writePhase s.rep.st) (skipNz s) (room s)

/-- The bus side of a tick: the strobe row, and on its address the latch row, in the order of `ADDR_COLLISION` =
`latch_over_increment` (R84): "the increment is applied first and the latched half then replaces its half". -/
def busSide (s : State) : Host.Outcome State Fault Refusal :=
  match s.par.addrCollision with
  | .latchOverIncrement => andThen (exec (strobeRow s) s) fun s1 => exec (latchRow s) s1

/-- The report side of a tick. With an unused code "the report state machine has no step, and the rest of the core still
steps" (R60): log entry 7. -/
def reportSide (s : State) : Host.Outcome State Fault Refusal :=
  match fsmRow s with
  | .ok i => exec i s
  | .error _ => .next s

/-- All writes of a tick committed together (R10): `addr`, the log and the bus from the bus side, the report registers
from the report side, the transmitter and its line from the transmitter, and `rd_prev <- rd` (R71). -/
def commit (s bus rep tx : State) : State where
  cfg := s.cfg
  inputs := s.inputs.tail
  tick := s.tick + 1
  rdPrev := rd s
  addr := bus.addr
  log := bus.log
  rep := rep.rep
  tx := tx.tx
  lines := { bus := bus.lines.bus, txLine := tx.lines.txLine }

/-- One tick, with the outcome of the transmitter's part given (R146). -/
def tickWith (s : State) (txSide : Host.Outcome State Fault Refusal) : Host.Outcome State Fault Refusal :=
  andThen (busSide s) fun b => andThen (reportSide s) fun r => andThen txSide fun t => .next (commit s b r t)

/-- One tick with the reference transmitter. -/
def tick (s : State) : Host.Outcome State Fault Refusal := tickWith s (exec (txRow s) s)

/-! ### Laying a table word where the next tick decodes it (log entry 14) -/

/-- The state whose next tick has the decode word `dw`: `rd_prev` from bit 20, and the input word from bits 19:0. -/
def placeDecodeWord (s : State) (dw : DecodeWord) : State :=
  { s with rdPrev := dw.getLsbD 20, inputs := dw.extractLsb' 0 20 :: s.inputs.tail }

/-- The state whose next tick has a falling edge and nothing else on the bus. -/
def placeFall (s : State) : State := placeDecodeWord s 0x100000#21

/-- The state whose next tick has an idle bus. -/
def placeIdle (s : State) : State := { s with inputs := 0x00000#20 :: s.inputs.tail }

/-- The state in the write phase. -/
def placeWritePhase (s : State) : State :=
  if writePhase s.rep.st then s else { s with rep := { s.rep with st := St.sendInitialChar } }

/-- A configuration with another baud divider. -/
def withTxDiv (c : Config) (n : Nat) (h : 1 ≤ n) : Config :=
  ⟨{ c.params with txDiv := n }, by
    have hc := c.ok
    simp only [Params.accepted, Params.wf, Params.signatureOk, Params.capOk, Params.dCharOk, Params.dRecOk,
      Params.bannerOk, Params.romOk, Params.maskOk, Params.txDivOk, Params.bannerLen, Params.romWords,
      Bool.and_eq_true] at hc ⊢
    exact ⟨⟨hc.1.1, decide_eq_true h⟩, hc.2⟩⟩

/-- The state whose next tick decodes `TW` to a busy row: a divider of 2, so that a bit both can and need not end. -/
def placeBusy (s : State) (cntAtEnd bitAtEnd : Bool) : State :=
  { s with
    cfg := withTxDiv s.cfg 2 (by decide)
    rep := { s.rep with txReady := false }
    tx := { s.tx with busy := true, cnt := if cntAtEnd then 1 else 0, bit := if bitAtEnd then 9 else 0 } }

/-- The state whose next tick runs the row `i` of a 4-bit format, with an idle bus beside it; the rows of the 21-bit
formats are laid by `placeDecodeWord`. -/
def placeRow (i : Instr) (s : State) : State :=
  match i with
  | .latchHi _ | .latchLo _ | .latchNone | .rdIdle | .rdRise | .rdHold | .rdFall =>
    placeDecodeWord s (BitVec.ofNat 21 (encode i))
  | .stSendInitialChar | .stInitWaitAck | .stInitialWait | .stWaitFull | .stSendChar | .stWaitAck
  | .stWait | .stActualDelay | .stDone =>
    placeIdle { s with rep := { s.rep with st := BitVec.ofNat 4 (encode i) } }
  | .txIdle => placeIdle { s with rep := { s.rep with txReady := false }, tx := { s.tx with busy := false } }
  | .txAccept => placeIdle { s with rep := { s.rep with txReady := true }, tx := { s.tx with busy := false } }
  | .txHoldBit => placeIdle (placeBusy s false false)
  | .txNextBit => placeIdle (placeBusy s true false)
  | .txFrameEnd => placeIdle (placeBusy s true true)
  | .captureNone => placeDecodeWord s 0x000000#21
  | .captureGated => placeFall { s with rep := { s.rep with st := St.done } }
  | .captureSkip => placeFall (placeWritePhase { s with log := { s.log with skip := 1 } })
  | .captureAppend =>
    placeFall (placeWritePhase { s with log := { s.log with skip := 0, wp := min s.log.wp (s.par.cap - 1) } })
  | .captureDrop => placeFall (placeWritePhase { s with log := { s.log with skip := 0, wp := s.par.cap } })

/-- The state whose next tick runs the row that `decodeTableWord` reads from the word. A 24-bit word is a whole decode
word and is laid as it is; a word that is no row changes nothing. -/
def placeTableWord (s : State) (nbits w : Nat) : State :=
  match decodeTableWord nbits w with
  | none => s
  | some i => if nbits = 24 then placeDecodeWord s (BitVec.ofNat 21 w) else placeRow i s

end Sys2Proof.Machine
end

