-- ==== Sys2Proof/Machine/Step.lean ====
section
/-! DEFINITION. One step of the core is one tick (R10, R11, R146). -/

namespace Sys2Proof.Machine

/-- "The step function must be called exactly once per simulated tick" (R11). -/
def step (s : State) : Host.Outcome State Fault Refusal := tick s

/-- The state whose next step runs the row of a table word (log entry 14). -/
def State.withFetchWord (s : State) (nbits w : Nat) : State := placeTableWord s nbits w

end Sys2Proof.Machine
end

