-- ==== Sys2Proof/Machine/AbstractTx.lean ====
section
/-!
DEFINITION. The abstract transmitter (R130 to R134, R141): any transmitter that meets the boundary contract, in place
of the reference one (log entry 18). It takes a character in the tick with `tx_ready` = 1 and holds it (`tx.busy`);
`want` says whether it acknowledges in the next tick the character it holds. So the time from acceptance to
acknowledge is whatever the run's choices make it, at least 1 tick, and there is no acknowledge without a character.
That every accepted character is acknowledged at last (R141's fairness assumption) is a property of a whole run's
choices: `FairChoices` (Safety.lean).
-/

namespace Sys2Proof.Machine

/-- The transmitter holds a character at the end of this tick's acceptance (R130). -/
def holdsChar (s : State) : Bool := s.tx.busy || s.rep.txReady

/-- One tick of the abstract transmitter. A `tx_ready` while it holds a character breaks the core's obligation (R133),
and faults as with the reference transmitter (R140). Its line is opaque (R134): a free value. -/
def abstractTx (want : Bool) (s : State) : Host.Outcome State Fault Refusal :=
  if s.tx.busy && s.rep.txReady then .fault .readyWhileBusy
  else .next { s with
    tx := { s.tx with busy := holdsChar s && !want, ack := holdsChar s && want }
    lines := { s.lines with txLine := Config.freeLine s.tick } }

/-- One tick of the core with the abstract transmitter. -/
def stepAbstract (want : Bool) (s : State) : Host.Outcome State Fault Refusal := tickWith s (abstractTx want s)

end Sys2Proof.Machine
end

