-- ==== Sys2Proof/Machine/Script.lean ====
section
/-!
DEFINITION. The tick-script notation (R68, R69): what a statement expands to, and the reading of its text (log
entry 19). A run of a script is a run from `State.init c (expandScript ss)` (R69).
-/

namespace Sys2Proof.Machine

/-- The input word of a latch phase: the bus value over the low digit that asserts the enables (R68). -/
def latchWord (h : Half) (low : Nibble) : InputWord := h ++ low

/-- The ticks of a statement (R68). -/
def expand : Stmt → List InputWord
  | .word iw n => List.replicate n iw
  | .idle n => List.replicate n 0x00000#20
  | .lhi h => [latchWord h 0x3#4]
  | .llo h => [latchWord h 0x1#4]
  | .latch a => [latchWord (a.extractLsb' 16 16) 0x3#4, latchWord (a.extractLsb' 0 16) 0x1#4]
  | .read n => List.replicate n 0x00004#20 ++ [0x00000#20]

/-- The ticks of a script. -/
def expandScript (ss : List Stmt) : List InputWord := (ss.map expand).flatten

/-! ### Text -/

/-- The pieces of a text between the characters that `p` picks. -/
def splitWhere (p : Char → Bool) : List Char → List (List Char)
  | [] => [[]]
  | c :: cs =>
    match splitWhere p cs with
    | [] => [[c]]
    | w :: ws => if p c then [] :: w :: ws else (c :: w) :: ws

/-- A separator between the words of a line. -/
def isBlank (c : Char) : Bool := c == ' ' || c == '\t' || c == '\r'

/-- The words of a line, less its comment ("`#` to end of line is a comment"). -/
def lineWords (l : List Char) : List (List Char) :=
  (splitWhere isBlank (l.takeWhile (fun c => c != '#'))).filter (fun w => !w.isEmpty)

/-- The value of a digit character in a base up to 16. -/
def charDigit (base : Nat) (c : Char) : Option Nat :=
  match parseHexDigit (BitVec.ofNat 8 (min c.toNat 255)) with
  | some d => if d < base then some d else none
  | none => none

/-- A numeral in a base, with the digits read so far in `acc`. -/
def numeralFrom (base acc : Nat) : List Char → Option Nat
  | [] => some acc
  | c :: cs => match charDigit base c with
    | some d => numeralFrom base (acc * base + d) cs
    | none => none

/-- A hex numeral of exactly `n` digits. -/
def hexNumeral (n : Nat) (w : List Char) : Option Nat := if w.length = n then numeralFrom 16 0 w else none

/-- A decimal repeat count of at least one digit. -/
def countNumeral (w : List Char) : Option Nat := if w.isEmpty then none else numeralFrom 10 0 w

/-- The statement of a line's words (R68). -/
def parseWords : List (List Char) → Option Stmt
  | [['W'], h] => (hexNumeral 5 h).map fun v => .word (BitVec.ofNat 20 v) 1
  | [['W'], h, ['*'], n] => match hexNumeral 5 h, countNumeral n with
    | some v, some k => some (.word (BitVec.ofNat 20 v) k)
    | _, _ => none
  | [['I', 'D', 'L', 'E'], n] => (countNumeral n).map .idle
  | [['L', 'H', 'I'], h] => (hexNumeral 4 h).map fun v => .lhi (BitVec.ofNat 16 v)
  | [['L', 'L', 'O'], h] => (hexNumeral 4 h).map fun v => .llo (BitVec.ofNat 16 v)
  | [['L', 'A', 'T', 'C', 'H'], h] => (hexNumeral 8 h).map fun v => .latch (BitVec.ofNat 32 v)
  | [['R', 'E', 'A', 'D'], n] => (countNumeral n).map .read
  | _ => none

/-- The statement of a line, which must be well-formed. -/
def parseLine (ws : List (List Char)) : Option Stmt :=
  match parseWords ws with
  | some st => if st.wf then some st else none
  | none => none

/-- The statements of a list of lines, each given by its words; a line without words is empty. -/
def parseLines : List (List (List Char)) → Option (List Stmt)
  | [] => some []
  | [] :: ls => parseLines ls
  | ws :: ls => match parseLine ws, parseLines ls with
    | some st, some sts => some (st :: sts)
    | _, _ => none

/-- The script of a text, one statement per line (R68). -/
def parseScript (text : List Char) : Option (List Stmt) :=
  parseLines ((splitWhere (fun c => c == '\n') text).map lineWords)

end Sys2Proof.Machine
end

