-- ==== Sys2Proof/Safety.lean ====
section
/-!
DEFINITION. What the statements speak of: runs of the core, what a run shows and captures, and the invariant of the
core (R107, R111, R124, R131, R158, and the ranges of 10_state.md).
-/

namespace Sys2Proof.Machine

/-! ### Runs -/

/-- `n` ticks of the core, stopping at a fault or a refusal. -/
def run : Nat → State → Host.Outcome State Fault Refusal
  | 0, s => .next s
  | n + 1, s => andThen (step s) (run n)

/-- The ticks of the core with an abstract transmitter that makes these choices. -/
def runAbstract : List Bool → State → Host.Outcome State Fault Refusal
  | [], s => .next s
  | w :: ws, s => andThen (stepAbstract w s) (runAbstract ws)

/-- The first `n` of an endless sequence of choices. -/
def choices (w : Nat → Bool) (n : Nat) : List Bool := (List.range n).map w

/-- The fairness assumption of R141: "every accepted character is eventually acknowledged". In the run from `s` that
makes the choices `w`, whenever the transmitter holds a character in a tick, it chooses in that tick or a later one to
acknowledge. It asks nothing of the ticks in which the transmitter holds none. -/
def FairChoices (w : Nat → Bool) (s : State) : Prop :=
  ∀ (n : Nat) (t : State), runAbstract (choices w n) s = .next t → holdsChar t = true → ∃ m, n ≤ m ∧ w m = true

/-- The characters shown in the first `n` ticks from a state (R147). -/
def stream : Nat → State → List Byte
  | 0, _ => []
  | n + 1, s => (charShown s).toList ++
    match step s with
    | .next t => stream n t
    | _ => []

/-- The characters shown in the ticks of a run with an abstract transmitter (R147). -/
def streamAbstract : List Bool → State → List Byte
  | [], _ => []
  | w :: ws, s => (charShown s).toList ++
    match stepAbstract w s with
    | .next t => streamAbstract ws t
    | _ => []

/-- The acknowledges the report machine has seen in the ticks of a run with an abstract transmitter: the ticks with
`tx_ack` = 1 (R131). -/
def acksAbstract : List Bool → State → Nat
  | [], _ => 0
  | w :: ws, s => (if s.tx.ack then 1 else 0) +
    match stepAbstract w s with
    | .next t => acksAbstract ws t
    | _ => 0

/-- The pairs of the write-phase captured reads in the first `n` ticks from a state, in order (R105, R109). -/
def captures : Nat → State → List Record
  | 0, _ => []
  | n + 1, s => (if fell s && writePhase s.rep.st then [captured s] else []) ++
    match step s with
    | .next t => captures n t
    | _ => []

/-- The records in the log, in index order. -/
def logged (s : State) : List Record := s.log.cells.map Prod.snd

/-- `BANNER ++ line(0, LogRead(0)) ++ … ++ line(n-1, LogRead(n-1))` (R65). -/
def reportText (s : State) : List Byte :=
  s.par.banner ++ (s.log.cells.map fun c => recordLine s.par c.1 c.2).flatten

/-! ### The invariant -/

/-- The acknowledge waits. -/
def ackWait (st : Nibble) : Bool := st == St.initWaitAck || st == St.waitAck

/-- R107 and R106: the log holds exactly the indices below `wp`, which is at most `CAP`; `skip` is at most `SKIP`, and 0
once a record is logged. -/
abbrev LogInv (s : State) : Prop :=
  s.log.wp ≤ s.par.cap ∧ s.log.skip ≤ s.par.skip ∧ (0 < s.log.wp → s.log.skip = 0) ∧
    s.log.cells.map Prod.fst = List.range s.log.wp

/-- R124, R131, R133: in an acknowledge wait exactly one of `tx_ready`, `tx_busy`, `tx_ack` is 1, elsewhere none. -/
abbrev HandshakeInv (s : State) : Prop :=
  (ackWait s.rep.st = true →
    (s.rep.txReady = true ∧ s.tx.busy = false ∧ s.tx.ack = false) ∨
    (s.rep.txReady = false ∧ s.tx.busy = true ∧ s.tx.ack = false) ∨
    (s.rep.txReady = false ∧ s.tx.busy = false ∧ s.tx.ack = true)) ∧
  (ackWait s.rep.st = false → s.rep.txReady = false ∧ s.tx.busy = false ∧ s.tx.ack = false)

/-- The ranges of the report machine's registers in each of its states (R18, R21 to R23, R108, R114 to R122). -/
abbrev ReportInv (s : State) : Prop :=
  s.rep.st.toNat ≤ 8 ∧ s.rep.tmo ≤ s.par.tFull ∧
  (writePhase s.rep.st = true → s.rep.rp = 0) ∧
  (s.rep.st = St.sendInitialChar ∨ s.rep.st = St.initWaitAck ∨ s.rep.st = St.initialWait →
    s.rep.cidx < s.par.bannerLen ∧ s.rep.tmo = s.par.tFull) ∧
  (s.rep.st = St.waitFull ∨ s.rep.st = St.actualDelay ∨ s.rep.st = St.done → s.rep.cidx = 0) ∧
  (s.rep.st = St.sendChar ∨ s.rep.st = St.waitAck ∨ s.rep.st = St.wait → s.rep.cidx < recLen s.par) ∧
  (readPhase s.rep.st = true → s.rep.rp < s.log.wp ∨ (s.log.wp = 0 ∧ s.rep.rp = 0 ∧
    (s.rep.st = St.done ∨ (s.rep.st = St.sendChar ∧ s.rep.cidx = 0)))) ∧
  (s.rep.st = St.done → s.rep.rp = s.log.wp - 1) ∧
  (s.rep.st = St.initialWait ∨ s.rep.st = St.wait → s.rep.dly < s.par.dChar) ∧
  (s.rep.st = St.actualDelay → s.rep.dly < s.par.dRec) ∧
  (s.rep.st ≠ St.initialWait → s.rep.st ≠ St.wait → s.rep.st ≠ St.actualDelay → s.rep.dly = 0)

/-- The reference transmitter (R25, R135 to R139): its counters in range and at rest while it is idle; while it is busy
the frame is that of the character last sent. -/
abbrev TxInv (s : State) : Prop :=
  s.tx.cnt < s.par.txDiv ∧ (s.tx.busy = false → s.tx.cnt = 0 ∧ s.tx.bit = 0) ∧
    (s.tx.busy = true → s.tx.frame = serialFrame s.rep.txData)

/-- The core's invariant at its character boundary, whatever the transmitter. -/
abbrev CoreInv (s : State) : Prop := LogInv s ∧ HandshakeInv s ∧ ReportInv s

/-- The core's invariant with the reference transmitter. -/
abbrev Inv (s : State) : Prop := CoreInv s ∧ TxInv s

/-- The bound of R149, and of R177 with the reference transmitter, on the ticks a report takes from power-on: `C` =
`10·TX_DIV + 3`, `wait_full` at its longest and the log full. -/
def reportBound (p : Params) : Nat :=
  p.bannerLen * (10 * p.txDiv + 3) + (p.bannerLen - 1) * p.dChar + (p.tFull + 1) +
    p.cap * (recLen p * (10 * p.txDiv + 3) + (recLen p - 1) * p.dChar + p.dRec)

/-! ### Observations in other words than the rules' -/

/-- The fields of `DW` (R55). -/
def wordFields (d : Half) (wr rd aleS aleP : Bool) : InputWord :=
  d ++ BitVec.ofBool wr ++ BitVec.ofBool rd ++ BitVec.ofBool aleS ++ BitVec.ofBool aleP

end Sys2Proof.Machine
end

