-- ==== Sys2Proof/Certificates/Slice0/Obligations.lean ====
section
/-!
DEFINITION. The statements for the provers. Each docstring names what of spec/ it formalises; where a clause rests on a
decision of the spec (92_eei_decisions.md), on an inference the spec marks as derived, or on a choice of the model (a
log entry), it says so.
-/

open Sys2Proof Sys2Proof.Machine Host.Outcome

/-! ### Decoding and encoding -/

/-- Words of 95_test_vectors.md section 2.1 and of the table of 30_encoding.md section 3, by hand. The encodings are the
spec's own choice (decisions D11, D22, D24). -/
def Obligations.SampleWordsDecodeToTheirRows : Prop :=
  decode .latch 0x112343 = .ok (.latchHi 0x1234) ∧ decode .strobe 0x112343 = .ok .rdFall ∧
  decode .latch 0x000006 = .ok .latchNone ∧ decode .strobe 0x000006 = .ok .rdRise ∧
  decode .latch 0x1ABCD5 = .ok (.latchLo 0xABCD) ∧ decode .strobe 0x1ABCD5 = .ok .rdHold ∧
  decode .fsmState 0b0111 = .ok .stActualDelay ∧ decode .fsmState 0b1001 = .error (.reservedStateCode 0b1001#4) ∧
  decode .txState 0b1110 = .ok .txNextBit ∧ decode .logStep 0b1101 = .ok .captureAppend ∧
  decode .txState 0b10000 = .error (.wordTooWide .txState 0b10000)

/-- Decoding the encoding of any instruction, with any operand, gives the instruction back. -/
def Obligations.DecodeOfEncodeIsTheInstruction : Prop :=
  ∀ i : Instr, decode i.format (encode i) = .ok i

/-- R56, R60, R67 and the columns of spec/opcode_table.json: a word decodes to a row of its format whose match and mask
it meets, no other row of the format meets it, and only the state codes 9 to 15 decode to none. -/
def Obligations.ExactlyOneRowOfAFormatMatches : Prop :=
  ∀ (f : Format) (w : Nat), w < 2 ^ f.width →
    (∀ i, decode f w = .ok i → i.format = f ∧ i.rowMatches w ∧
      ∀ j : Instr, j.format = f → j.rowMatches w → j.mnemonic = i.mnemonic) ∧
    ((∃ i, decode f w = .ok i) ↔ ¬ (f = .fsmState ∧ 9 ≤ w))

/-- The operand of a latch row that writes is `DW[19:4]`, and bits 3:2 and 20 select nothing in the latch group (R55 to
R57, the layout being decision D24). -/
def Obligations.LatchOperandIsTheBusValue : Prop :=
  ∀ (q : Bool) (d : Half) (wr rd aleS : Bool),
    decodeLatch (BitVec.ofBool q ++ wordFields d wr rd aleS true) = (if aleS then .latchHi d else .latchLo d) ∧
    decodeLatch (BitVec.ofBool q ++ wordFields d wr rd aleS false) = .latchNone

/-- The model's own convention (log entries 13 and 14): the row that `decodeTableWord` reads from a word is one of the
rows that the next tick decodes once the word is laid. -/
def Obligations.LaidTableWordIsDecodedNext : Prop :=
  (∀ (s : State) (w : Nat), w < 2 ^ 21 → decodeWord (s.withFetchWord 24 w) = BitVec.ofNat 21 w) ∧
  (∀ (s : State) (w : Nat) (i : Instr), decodeTableWord 24 w = some i →
    latchRow (s.withFetchWord 24 w) = i ∨ strobeRow (s.withFetchWord 24 w) = i) ∧
  (∀ (s : State) (w : Nat) (i : Instr), decodeTableWord 8 w = some i →
    fsmRow (s.withFetchWord 8 w) = .ok i ∨ txRow (s.withFetchWord 8 w) = i ∨ captureRow (s.withFetchWord 8 w) = i)

/-! ### The whole tick -/

/-- One tick runs the decoded row of each group on the start-of-tick values and commits their writes together (R10, R56,
R146); the latch row takes the address the strobe row leaves (decision D4), and the log is as the row of `GW` leaves
it. A fault of the report row or of the transmitter row is the fault of the step. -/
def Obligations.StepRunsTheDecodedRows : Prop :=
  ∀ (s : State) (i : Instr), decodeFsm s.rep.st = .ok i →
    (∀ s1 s2 r x, exec (decodeStrobe (decodeWord s)) s = next s1 → exec (decodeLatch (decodeWord s)) s1 = next s2 →
      exec i s = next r → exec (decodeTx s.tx.busy s.rep.txReady (cntEnd s) (bitEnd s)) s = next x →
      step s = next
        { cfg := s.cfg, inputs := s.inputs.tail, tick := s.tick + 1, rdPrev := rd s, addr := s2.addr, log := s2.log,
          rep := r.rep, tx := x.tx, lines := { bus := s2.lines.bus, txLine := x.lines.txLine } } ∧
      ∃ u, exec (decodeLog (fell s) (writePhase s.rep.st) (skipNz s) (room s)) s = next u ∧ s2.log = u.log) ∧
    (∀ f, exec i s = fault f → step s = fault f) ∧
    (∀ r f, exec i s = next r → exec (decodeTx s.tx.busy s.rep.txReady (cntEnd s) (bitEnd s)) s = fault f →
      step s = fault f)

/-- The write sets of R146, row by row: a row's next state differs from its start only in the registers and outputs its
rule writes. Of the log's records only the one at `wp` can change, in CAPTURE_APPEND and in an RD_FALL whose log step
appends (R100, R103); every other row, and every other RD_FALL, leaves the records as they were. -/
def Obligations.RowsWriteOnlyTheirComponent : Prop :=
  ∀ (i : Instr) (s t : State), exec i s = next t →
    match i with
    | .latchHi _ | .latchLo _ => t = { s with addr := t.addr }
    | .latchNone | .captureNone | .captureGated | .captureDrop => t = s
    | .rdIdle | .rdRise | .rdHold => t = { s with lines := { s.lines with bus := t.lines.bus } }
    | .rdFall =>
      t = { s with addr := t.addr, log := t.log, lines := { s.lines with bus := t.lines.bus } } ∧
      (∀ k, k ≠ s.log.wp → logRead t.par t.log.cells k = logRead s.par s.log.cells k) ∧
      (¬ (writePhase s.rep.st = true ∧ s.log.skip = 0 ∧ s.log.wp < s.par.cap) →
        t.log.cells = s.log.cells ∧ t.log.wp = s.log.wp) ∧
      (¬ (writePhase s.rep.st = true ∧ 0 < s.log.skip) → t.log.skip = s.log.skip)
    | .stSendInitialChar | .stInitWaitAck | .stInitialWait | .stWaitFull | .stSendChar | .stWaitAck | .stWait
    | .stActualDelay | .stDone => t = { s with rep := t.rep }
    | .txIdle | .txAccept | .txHoldBit | .txNextBit | .txFrameEnd =>
      t = { s with tx := t.tx, lines := { s.lines with txLine := t.lines.txLine } }
    | .captureSkip => t = { s with log := { s.log with skip := t.log.skip } }
    | .captureAppend =>
      t = { s with log := { s.log with wp := t.log.wp, cells := t.log.cells } } ∧
      (∀ k, k ≠ s.log.wp → logRead t.par t.log.cells k = logRead s.par s.log.cells k)

/-- "Neither changes during a run" (R26): no tick changes the configuration, the ROM image in it included, with the
reference transmitter or another. -/
def Obligations.ConfigurationNeverChanges : Prop :=
  (∀ (n : Nat) (s t : State), run n s = next t → t.cfg = s.cfg) ∧
  (∀ (ws : List Bool) (s t : State), runAbstract ws s = next t → t.cfg = s.cfg)

/-- The write strobe has no effect on anything (R45, decision D31); with the primary latch-enable low neither the bus value
nor the secondary enable has any (R56, R66, R82). -/
def Obligations.UnselectedInputsHaveNoEffect : Prop :=
  (∀ (s : State) (d : Half) (rd aleS aleP : Bool) (rest : List InputWord),
    step { s with inputs := wordFields d true rd aleS aleP :: rest } =
      step { s with inputs := wordFields d false rd aleS aleP :: rest }) ∧
  (∀ (s : State) (d d' : Half) (wr rd aleS aleS' : Bool) (rest : List InputWord),
    step { s with inputs := wordFields d wr rd aleS false :: rest } =
      step { s with inputs := wordFields d' wr rd aleS' false :: rest })

/-- The bus side does not depend on the log, the report machine or the transmitter (R94, decision D36; the read sets of
R146). -/
def Obligations.BusSideIgnoresLogReportAndTransmitter : Prop :=
  ∀ s s' t t' : State, s'.cfg = s.cfg → s'.inputs = s.inputs → s'.tick = s.tick → s'.rdPrev = s.rdPrev →
    s'.addr = s.addr → step s = next t → step s' = next t' →
    t'.addr = t.addr ∧ t'.rdPrev = t.rdPrev ∧ t'.lines.bus = t.lines.bus

/-- The report machine and the transmitter do not depend on the bus inputs, the address or the read sample (the read
sets of R146). The tick counter is the model's own (log entry 4). -/
def Obligations.ReportAndTransmitterIgnoreTheBus : Prop :=
  ∀ s s' t t' : State, s'.cfg = s.cfg → s'.tick = s.tick → s'.log = s.log → s'.rep = s.rep → s'.tx = s.tx →
    step s = next t → step s' = next t' → t'.rep = t.rep ∧ t'.tx = t.tx ∧ t'.lines.txLine = t.lines.txLine

/-! ### Power-on -/

/-- R5 (decision D29), R150 (code 1: decision D27), R170: a configuration outside the ranges is refused, then one whose
image's first word is not the signature; every other one has a run, which starts with that configuration. -/
def Obligations.PowerOnRefusesBadConfigurations : Prop :=
  ∀ (p : Params) (ins : List InputWord),
    (¬ (1 ≤ p.cap ∧ 1 ≤ p.dChar ∧ 1 ≤ p.dRec ∧ 1 ≤ p.bannerLen ∧ 1 ≤ p.romWords ∧
        (p.romMask >>> 1).toNat < p.romWords ∧ 1 ≤ p.txDiv) →
      powerOn p ins = refused .configurationRefused) ∧
    (p.wf = true → p.rom[0]? ≠ some p.romSignature →
      ∃ x, powerOn p ins = refused x ∧ x = .romSignatureMismatch ∧ causeCode x = some 1) ∧
    (p.wf = true → p.rom[0]? = some p.romSignature →
      ∃ s, powerOn p ins = next s ∧ s.par = p ∧ s.inputs = ins)

/-- The power-on values of R27, for every accepted configuration and stimulus (several are decisions: D3, D9, D10, D13,
D14, D16, D18, D22), and the log without a record. -/
def Obligations.PowerOnValuesOfTheRegisters : Prop :=
  ∀ (c : Config) (ins : List InputWord), powerOn c.params ins = next (State.init c ins) ∧
    let s := State.init c ins
    s.addr = 0x00000000#32 ∧ s.rdPrev = false ∧ s.log.skip = c.params.skip ∧ s.log.wp = 0 ∧ s.rep.rp = 0 ∧
    (∀ i, logRead s.par s.log.cells i = none) ∧ s.rep.st = St.sendInitialChar ∧ s.rep.cidx = 0 ∧ s.rep.dly = 0 ∧
    s.rep.tmo = c.params.tFull ∧ s.rep.txReady = false ∧ s.rep.txData = 0x00#8 ∧ s.tx.busy = false ∧
    s.tx.frame = 0x3FF#10 ∧ s.tx.bit.val = 0 ∧ s.tx.cnt = 0 ∧ s.tx.ack = false

/-- The invariant holds at power-on, for every accepted configuration and stimulus, reset among them (R27, R107, R124). The
log of reset is in canonical form: the list of cells and that form are the model's own choice (log entry 6), not the
spec's. -/
def Obligations.PowerOnMeetsTheInvariant : Prop :=
  (∀ (c : Config) (ins : List InputWord), Inv (State.init c ins)) ∧ Inv State.reset ∧ Memory.wf State.reset.log.cells

/-! ### The invariant -/

/-- R155, with R107, R108, R124, R131 and the ranges of 10_state.md: from every state that meets the invariant a tick
answers a next state, whatever the bus does, and the next state meets it. -/
def Obligations.InvariantStatesNeverStopAndKeepIt : Prop :=
  ∀ s : State, Inv s → ∃ t, step s = next t ∧ Inv t

/-- The same at the character boundary, for every transmitter that meets the contract (R141). -/
def Obligations.CoreInvariantHoldsForEveryTransmitter : Prop :=
  ∀ (want : Bool) (s : State), CoreInv s → ∃ t, stepAbstract want s = next t ∧ CoreInv t

/-- Every register fits the width or range the spec gives it, in every state that meets the invariant (R16 to R18, R21 to
R25, R27, R158; the widths are decision D28). -/
def Obligations.CountersFitTheirWidths : Prop :=
  ∀ s : State, Inv s →
    s.log.skip < 2 ^ skipBits s.par ∧ s.log.wp < 2 ^ wpBits s.par ∧ s.rep.rp < 2 ^ idxBits s.par ∧
    s.rep.tmo < 2 ^ tmoBits s.par ∧ s.tx.cnt < 2 ^ cntBits s.par ∧
    s.rep.cidx < max s.par.bannerLen (recLen s.par) ∧ s.rep.dly < max s.par.dChar s.par.dRec

/-- Every tick keeps the log's cells in canonical form, in every state. The list of cells and its canonical form are the
model's own choice (log entry 6), not the spec's. -/
def Obligations.TickKeepsTheLogCanonical : Prop :=
  (∀ s t : State, Memory.wf s.log.cells → step s = next t → Memory.wf t.log.cells) ∧
  (∀ (w : Bool) (s t : State), Memory.wf s.log.cells → stepAbstract w s = next t → Memory.wf t.log.cells)

/-! ### Edge detector and address reconstructor -/

/-- R70, R71: the strobes by their truth table, never both, each one tick wide; the sample is kept for the next tick; the
first tick has no falling edge (an inference the spec marks as derived in R71). -/
def Obligations.EdgeStrobesAreOneTickWide : Prop :=
  (∀ s : State, (fell s = true ↔ s.rdPrev = true ∧ rd s = false) ∧ (rose s = true ↔ s.rdPrev = false ∧ rd s = true) ∧
    ¬ (fell s = true ∧ rose s = true)) ∧
  (∀ s t : State, step s = next t → t.rdPrev = rd s ∧ (fell s = true → fell t = false) ∧
    (rose s = true → rose t = false)) ∧
  (∀ (c : Config) (ins : List InputWord), fell (State.init c ins) = false)

/-- R80: both enables select the row; the high half takes the bus value, the low half and everything else keep theirs, in
every tick with both enables (with no falling edge in it: R84 says how the two combine). -/
def Obligations.LatchHiWritesTheHighHalf : Prop :=
  (∀ s : State, aleP s = true → aleS s = true → latchRow s = .latchHi (adIn s)) ∧
  (∀ (d : Half) (s : State), ∃ t, exec (.latchHi d) s = next t ∧ t.addr.extractLsb' 16 16 = d ∧
    t.addr.extractLsb' 0 16 = s.addr.extractLsb' 0 16 ∧ t = { s with addr := t.addr }) ∧
  (∀ s t : State, step s = next t → aleP s = true → aleS s = true → fell s = false →
    t.addr.extractLsb' 16 16 = adIn s ∧ t.addr.extractLsb' 0 16 = s.addr.extractLsb' 0 16)

/-- R81: the primary enable alone selects the row; the low half takes the bus value, the high half and everything else keep
theirs, in every tick with the primary enable alone (with no falling edge in it: R84). -/
def Obligations.LatchLoWritesTheLowHalf : Prop :=
  (∀ s : State, aleP s = true → aleS s = false → latchRow s = .latchLo (adIn s)) ∧
  (∀ (d : Half) (s : State), ∃ t, exec (.latchLo d) s = next t ∧ t.addr.extractLsb' 0 16 = d ∧
    t.addr.extractLsb' 16 16 = s.addr.extractLsb' 16 16 ∧ t = { s with addr := t.addr }) ∧
  (∀ s t : State, step s = next t → aleP s = true → aleS s = false → fell s = false →
    t.addr.extractLsb' 0 16 = adIn s ∧ t.addr.extractLsb' 16 16 = s.addr.extractLsb' 16 16)

/-- R82: "If primary not asserted, no write": the primary enable low selects the row, which changes nothing, and a tick
without the primary enable and without a falling edge leaves the address, whatever `ale_s` and `ad_in` are. -/
def Obligations.LatchNoneWritesNothing : Prop :=
  (∀ s : State, aleP s = false → latchRow s = .latchNone) ∧
  (∀ s : State, exec .latchNone s = next s) ∧
  (∀ s t : State, step s = next t → aleP s = false → fell s = false → t.addr = s.addr)

/-- The one next value of the address (R84): the increment, then the latched half over it. The order is decision D4, the
wrap decision D33. -/
def Obligations.OneNextAddressPerTick : Prop :=
  ∀ s t : State, step s = next t →
    let a1 : Nat := if fell s = true then (s.addr.toNat + 2) % 2 ^ 32 else s.addr.toNat
    t.addr.toNat =
      (if aleP s = true then
        if aleS s = true then (adIn s).toNat * 2 ^ 16 + a1 % 2 ^ 16 else a1 / 2 ^ 16 * 2 ^ 16 + (adIn s).toNat
      else a1)

/-- R86 (an inference the spec marks as derived): the two phases of one sequence, in either order, with no other latch
write between and no falling edge in the ticks after the first up to the second, leave `{H, L}`. -/
def Obligations.TwoPhasesReconstructTheAddress : Prop :=
  ∀ (s t : State) (h l : Half) (w1 w2 : InputWord) (mid rest : List InputWord) (wr1 rd1 wr2 rd2 : Bool),
    ((w1 = wordFields h wr1 rd1 true true ∧ w2 = wordFields l wr2 rd2 false true) ∨
     (w1 = wordFields l wr1 rd1 false true ∧ w2 = wordFields h wr2 rd2 true true)) →
    (∀ m ∈ mid, m.getLsbD 0 = false) →
    (∀ (k : Nat) (a b : InputWord), (w1 :: (mid ++ [w2]))[k]? = some a → (w1 :: (mid ++ [w2]))[k + 1]? = some b →
      a.getLsbD 2 = true → b.getLsbD 2 = true) →
    s.inputs = w1 :: (mid ++ [w2]) ++ rest →
    run (mid.length + 2) s = next t → t.addr = h ++ l ∧ t.inputs = rest

/-- R68 (decision D25): the statement `LATCH` sets the whole address, and one `READ n` gives exactly one captured read,
whatever its length (R173, an inference the spec marks as derived); the text of program P1 (95_test_vectors.md section 3)
is read as its statements and they expand to the ten input words listed there. -/
def Obligations.ScriptStatementsLatchAndRead : Prop :=
  (∀ (s t : State) (a : Addr) (rest : List InputWord), s.inputs = expand (.latch a) ++ rest →
    run 2 s = next t → t.addr = a ∧ t.inputs = rest) ∧
  (∀ (s t : State) (n : Nat) (rest : List InputWord), 1 ≤ n → s.inputs = expand (.read n) ++ rest →
    run (n + 1) s = next t → t.addr = s.addr + 2#32 ∧ (captures (n + 1) s).length ≤ 1 ∧ t.rdPrev = false ∧
      t.inputs = rest) ∧
  (parseScript ['L','A','T','C','H',' ','1','0','0','0','F','F','F','C',' ','#',' ','t','0','\n',
      'I','D','L','E',' ','1','\n', 'R','E','A','D',' ','2','\n', 'R','E','A','D',' ','1','\n',
      'R','E','A','D',' ','1']).map expandScript =
    some [0x10003#20, 0xFFFC1#20, 0x00000#20, 0x00004#20, 0x00004#20, 0x00000#20, 0x00004#20, 0x00000#20, 0x00004#20,
      0x00000#20]

/-! ### ROM and bus -/

/-- R44 (decision D6): for an accepted configuration every address reads a word inside the image. -/
def Obligations.EveryAddressReadsInsideTheImage : Prop :=
  ∀ (c : Config) (a : Addr), romIndex c.params a < c.params.romWords ∧
    romRead c.params (romIndex c.params a) = some (romWord c a)

/-- R54: the addresses `2k` and `2k+1` read the same word; an odd address raises nothing and is recorded as it is; the
increment keeps the parity. -/
def Obligations.OddAddressesReadTheSameWord : Prop :=
  (∀ (c : Config) (k : Nat), romWord c (BitVec.ofNat 32 (2 * k)) = romWord c (BitVec.ofNat 32 (2 * k + 1))) ∧
  (∀ s : State, ∃ t, exec .rdFall s = next t ∧ t.addr.toNat % 2 = s.addr.toNat % 2) ∧
  (∀ s : State, s.log.wp < s.par.cap → ∃ t v, exec .captureAppend s = next t ∧
    logRead t.par t.log.cells s.log.wp = some v ∧ recAddr v = s.addr)

/-- R43: word `i` is `{b[2i+1], b[2i]}`; the window is R42's. Two parts of the length clause are the model's choice: that a
lone last byte makes no word (log entry 16), and that a byte sequence of fewer words than the window loads the words
there are (log entry 22). -/
def Obligations.LoadedImageIsLittleEndian : Prop :=
  ∀ (n : Nat) (bytes : List Byte),
    (∀ i lo hi, i < n → bytes[2 * i]? = some lo → bytes[2 * i + 1]? = some hi →
      ∃ w, (loadRom n bytes)[i]? = some w ∧ w.extractLsb' 0 8 = lo ∧ w.extractLsb' 8 8 = hi) ∧
    (loadRom n bytes).length = min n (bytes.length / 2)

/-- R90: RD_RISE and RD_HOLD drive the ROM's word at `addr` and change nothing else; every tick with `rd` = 1 does so,
from its start-of-tick address. -/
def Obligations.StrobeDrivesTheRomWord : Prop :=
  (∀ s : State, rd s = true → strobeRow s = (if s.rdPrev = true then .rdHold else .rdRise)) ∧
  (∀ (i : Instr) (s : State), i = .rdRise ∨ i = .rdHold →
    ∃ w, s.par.rom[((s.addr &&& s.par.romMask) >>> 1).toNat]? = some w ∧
      exec i s = next { s with lines := { s.lines with bus := .driven w } }) ∧
  (∀ s t : State, step s = next t → rd s = true →
    ∃ w, s.par.rom[((s.addr &&& s.par.romMask) >>> 1).toNat]? = some w ∧ t.lines.bus = .driven w)

/-- R91: RD_FALL and RD_IDLE release the bus; RD_IDLE changes nothing else; every tick with `rd` = 0 releases it, the falling edge's tick
among them. -/
def Obligations.NoStrobeReleasesTheBus : Prop :=
  (∀ s : State, rd s = false → strobeRow s = (if s.rdPrev = true then .rdFall else .rdIdle)) ∧
  (∀ s : State, ∃ t, exec .rdFall s = next t ∧ t.lines = { s.lines with bus := .released }) ∧
  (∀ s : State, exec .rdIdle s = next { s with lines := { s.lines with bus := .released } }) ∧
  (∀ s t : State, step s = next t → rd s = false → t.lines.bus = .released ∧ t.lines.bus.oe = false)

/-! ### Log buffer -/

/-- R100: a falling edge selects the row; RD_FALL takes the log step of the row that `GW` selects, adds 2 to the address, releases the bus, and changes
nothing else (of the log's records only the one at `wp`); the increment and the release happen whatever the log step
does. -/
def Obligations.CapturedReadDoesThreeThings : Prop :=
  (∀ s : State, strobeRow s = .rdFall ↔ fell s = true) ∧
  ∀ s : State, ∃ t u, exec .rdFall s = next t ∧ t.addr.toNat = (s.addr.toNat + 2) % 2 ^ 32 ∧
    t.lines.bus = .released ∧
    exec (decodeLog true (writePhase s.rep.st) (skipNz s) (room s)) s = next u ∧ t.log = u.log ∧
    (∀ i, i ≠ s.log.wp → logRead t.par t.log.cells i = logRead s.par s.log.cells i) ∧
    t = { s with addr := t.addr, log := t.log, lines := { s.lines with bus := .released } }

/-- R102: with `skip` > 0 a write-phase falling edge counts `skip` down by one and writes no record, also when the buffer
is full. -/
def Obligations.CaptureSkipOnlyCountsDown : Prop :=
  (∀ s : State, 0 < s.log.skip → ∃ t, exec .captureSkip s = next t ∧ t.log.skip + 1 = s.log.skip ∧
    t = { s with log := { s.log with skip := t.log.skip } }) ∧
  (∀ s t : State, step s = next t → fell s = true → writePhase s.rep.st = true → 0 < s.log.skip →
    t.log.skip + 1 = s.log.skip ∧ t.log.wp = s.log.wp ∧ t.log.cells = s.log.cells)

/-- R103, R105: with room, the pair of the start-of-tick address and the ROM's word there is written at `wp`, every other
index reads as before, and `wp` goes up by one; a write-phase falling edge with `skip` = 0 does so. -/
def Obligations.CaptureAppendRecordsThePair : Prop :=
  (∀ s : State, s.log.wp < s.par.cap → ∃ t v, exec .captureAppend s = next t ∧ t.log.wp = s.log.wp + 1 ∧
    t.log.skip = s.log.skip ∧ logRead t.par t.log.cells s.log.wp = some v ∧ v.extractLsb' 16 32 = s.addr ∧
    s.par.rom[romIndex s.par s.addr]? = some (v.extractLsb' 0 16) ∧
    (∀ i, i ≠ s.log.wp → logRead t.par t.log.cells i = logRead s.par s.log.cells i) ∧ t = { s with log := t.log }) ∧
  (∀ s t : State, step s = next t → fell s = true → writePhase s.rep.st = true → s.log.skip = 0 →
    s.log.wp < s.par.cap →
    t.log.wp = s.log.wp + 1 ∧ t.log.skip = 0 ∧
    logRead t.par t.log.cells s.log.wp = some (record s.addr (romWord s.cfg s.addr)) ∧
    ∀ i, i ≠ s.log.wp → logRead t.par t.log.cells i = logRead s.par s.log.cells i)

/-- R104, R101 (decision D8) and R100: CAPTURE_DROP, CAPTURE_GATED and CAPTURE_NONE change nothing; a write-phase falling edge on a full buffer
with `skip` = 0 leaves the log as it is while the address advances. -/
def Obligations.DroppedCapturesWriteNothing : Prop :=
  (∀ s : State, exec .captureDrop s = next s ∧ exec .captureGated s = next s ∧ exec .captureNone s = next s) ∧
  (∀ s t : State, step s = next t → fell s = true → writePhase s.rep.st = true → s.log.skip = 0 →
    s.log.wp = s.par.cap → aleP s = false → t.log = s.log ∧ t.addr = s.addr + 2#32)

/-- R101 (decision D8): in the read phase no tick changes the log's registers, and a falling edge still advances the
address. -/
def Obligations.ReadPhaseFreezesTheLog : Prop :=
  ∀ s t : State, step s = next t → readPhase s.rep.st = true →
    t.log = s.log ∧ (fell s = true → aleP s = false → t.addr = s.addr + 2#32)

/-- R106: the skip counter only counts down, R102's tick is the only one that changes it, and at 0 it stays. -/
def Obligations.SkipCounterOnlyCountsDown : Prop :=
  ∀ s t : State, step s = next t →
    t.log.skip ≤ s.log.skip ∧ (s.log.skip = 0 → t.log.skip = 0) ∧
    (t.log.skip ≠ s.log.skip → fell s = true ∧ writePhase s.rep.st = true ∧ t.log.skip + 1 = s.log.skip)

/-- R107, R47 (inferences the spec marks as derived): a tick never lowers `wp`, raises it by at most one and never past
`CAP`, and never changes a record below it. -/
def Obligations.LogOnlyGrows : Prop :=
  ∀ s t : State, step s = next t →
    s.log.wp ≤ t.log.wp ∧ t.log.wp ≤ s.log.wp + 1 ∧ (s.log.wp ≤ s.par.cap → t.log.wp ≤ t.par.cap) ∧
    ∀ i, i < s.log.wp → logRead t.par t.log.cells i = logRead s.par s.log.cells i

/-- R109, R107, R50 (inferences the spec marks as derived): in every run from power-on the log holds, in capture order,
the write-phase captured reads less the first `SKIP`, until `CAP` have been appended. -/
def Obligations.LogHoldsTheReadsAfterTheSkipWindow : Prop :=
  ∀ (c : Config) (ins : List InputWord) (n : Nat) (t : State), run n (State.init c ins) = next t →
    let seen := captures n (State.init c ins)
    logged t = (seen.drop c.params.skip).take c.params.cap ∧ t.log.wp = (logged t).length ∧
    t.log.skip = c.params.skip - seen.length ∧ ∀ i, logRead t.par t.log.cells i = (logged t)[i]?

/-! ### Report state machine -/

/-- R114: the state sends `BANNER[cidx]` and goes to `init_wait_ack`; everything else stays. Outside the banner, where no
run comes, the character is a free value (log entry 10) and the rest is the same. -/
def Obligations.SendInitialCharSendsTheBanner : Prop :=
  ∀ s : State, ∃ t, exec .stSendInitialChar s = next t ∧
    (s.rep.cidx < s.par.bannerLen → s.par.banner[s.rep.cidx]? = some t.rep.txData) ∧
    t = { s with rep := { s.rep with txData := t.rep.txData, txReady := true, st := St.initWaitAck } }

/-- R115. -/
def Obligations.InitWaitAckFollowsTheAcknowledge : Prop :=
  ∀ s : State, ∃ t, exec .stInitWaitAck s = next t ∧
    (s.tx.ack = false → t.rep.cidx = s.rep.cidx ∧ t.rep.st = s.rep.st) ∧
    (s.tx.ack = true → s.rep.cidx = s.par.bannerLen - 1 → t.rep.cidx = 0 ∧ t.rep.st = St.waitFull) ∧
    (s.tx.ack = true → s.rep.cidx ≠ s.par.bannerLen - 1 →
      t.rep.cidx = s.rep.cidx + 1 ∧ t.rep.st = St.initialWait) ∧
    t = { s with rep := { s.rep with txReady := false, cidx := t.rep.cidx, st := t.rep.st } }

/-- R116 and R120 (the durations are decision D14). -/
def Obligations.CharacterDelaysCountToTheirEnd : Prop :=
  ∀ (i : Instr) (after : Nibble) (s : State),
    (i = .stInitialWait ∧ after = St.sendInitialChar) ∨ (i = .stWait ∧ after = St.sendChar) →
    ∃ t, exec i s = next t ∧
      (s.rep.dly = s.par.dChar - 1 → t.rep.dly = 0 ∧ t.rep.st = after) ∧
      (s.rep.dly ≠ s.par.dChar - 1 → t.rep.dly = s.rep.dly + 1 ∧ t.rep.st = s.rep.st) ∧
      t = { s with rep := { s.rep with txReady := false, dly := t.rep.dly, st := t.rep.st } }

/-- R117 (the counter is decision D16). -/
def Obligations.WaitFullEndsOnFullOrTimeout : Prop :=
  ∀ s : State, ∃ t, exec .stWaitFull s = next t ∧
    (s.log.wp = s.par.cap ∨ s.rep.tmo = 0 → t.rep.st = St.sendChar ∧ t.rep.tmo = s.rep.tmo) ∧
    (s.log.wp ≠ s.par.cap → s.rep.tmo ≠ 0 → t.rep.st = s.rep.st ∧ t.rep.tmo + 1 = s.rep.tmo) ∧
    t = { s with rep := { s.rep with txReady := false, tmo := t.rep.tmo, st := t.rep.st } }

/-- R118 (the empty drain is decision D17), R46: with nothing captured the machine is done; else the state sends the
line's character, and a record nothing has written faults. Outside the line, where no run comes, the character is a
free value (log entry 10) and the rest is the same. -/
def Obligations.SendCharSendsTheRecordLine : Prop :=
  (∀ s : State, s.log.wp = 0 →
    exec .stSendChar s = next { s with rep := { s.rep with txReady := false, st := St.done } }) ∧
  (∀ (s : State) (v : Record), s.log.wp ≠ 0 → logRead s.par s.log.cells s.rep.rp = some v →
    ∃ t, exec .stSendChar s = next t ∧
      (s.rep.cidx < recLen s.par → (recordLine s.par s.rep.rp v)[s.rep.cidx]? = some t.rep.txData) ∧
      t = { s with rep := { s.rep with txData := t.rep.txData, txReady := true, st := St.waitAck } }) ∧
  (∀ s : State, s.log.wp ≠ 0 → logRead s.par s.log.cells s.rep.rp = none →
    exec .stSendChar s = fault .unwrittenLogRead)

/-- R119. -/
def Obligations.WaitAckFollowsTheAcknowledge : Prop :=
  ∀ s : State, ∃ t, exec .stWaitAck s = next t ∧
    (s.tx.ack = false → t.rep.cidx = s.rep.cidx ∧ t.rep.st = s.rep.st) ∧
    (s.tx.ack = true → s.rep.cidx = recLen s.par - 1 → t.rep.cidx = 0 ∧ t.rep.st = St.actualDelay) ∧
    (s.tx.ack = true → s.rep.cidx ≠ recLen s.par - 1 → t.rep.cidx = s.rep.cidx + 1 ∧ t.rep.st = St.wait) ∧
    t = { s with rep := { s.rep with txReady := false, cidx := t.rep.cidx, st := t.rep.st } }

/-- R121 (durations: decisions D14, D15; the bound: conflict C4). -/
def Obligations.ActualDelayMovesToTheNextRecord : Prop :=
  ∀ s : State, ∃ t, exec .stActualDelay s = next t ∧
    (s.rep.dly ≠ s.par.dRec - 1 →
      t.rep.dly = s.rep.dly + 1 ∧ t.rep.rp = s.rep.rp ∧ t.rep.st = s.rep.st) ∧
    (s.rep.dly = s.par.dRec - 1 → s.rep.rp + 1 < s.log.wp →
      t.rep.dly = 0 ∧ t.rep.rp = s.rep.rp + 1 ∧ t.rep.st = St.sendChar) ∧
    (s.rep.dly = s.par.dRec - 1 → s.log.wp ≤ s.rep.rp + 1 →
      t.rep.dly = 0 ∧ t.rep.rp = s.rep.rp ∧ t.rep.st = St.done) ∧
    t = { s with rep := { s.rep with txReady := false, dly := t.rep.dly, rp := t.rep.rp, st := t.rep.st } }

/-- R122: the state writes `tx_ready <- 0` and nothing else; a tick in `done` ends in `done`, with the rest of the report
registers as they were, while the bus side keeps running: a falling edge still advances the address. -/
def Obligations.DoneIsTerminal : Prop :=
  (∀ s : State, exec .stDone s = next { s with rep := { s.rep with txReady := false } }) ∧
  (∀ (n : Nat) (s t : State), s.rep.st = St.done → run n s = next t → t.rep.st = St.done) ∧
  (∀ s t : State, s.rep.st = St.done → step s = next t → t.rep = { s.rep with txReady := false } ∧
    (fell s = true → aleP s = false → t.addr = s.addr + 2#32))

/-- R111 (decision D18): `tx_ready` is 1 exactly in the tick after a send, in every state of the machine; the send of an
empty drain is none (decision D17). -/
def Obligations.ReadyIsAPulseAfterASend : Prop :=
  ∀ s t : State, s.rep.st.toNat ≤ 8 → step s = next t →
    (t.rep.txReady = true ↔ s.rep.st = St.sendInitialChar ∨ (s.rep.st = St.sendChar ∧ s.log.wp ≠ 0)) ∧
    (t.rep.txReady = false → t.rep.txData = s.rep.txData)

/-- R60 (decision D12): with an unused state code the report machine has no step and the rest of the core still steps: the
next state is that of the strobe, latch and transmitter rows, with the report registers and the log as they were (the
code is in no write phase) and a falling edge advancing the address; where the transmitter faults (R140) the step does.
No tick of another state writes such a code. That the frozen machine keeps `tx_ready` too is the model's reading (log
entry 7). -/
def Obligations.UnusedStateCodesAreStuck : Prop :=
  (∀ s : State, 9 ≤ s.rep.st.toNat → s.tx.busy = false ∨ s.rep.txReady = false →
    ∃ s1 s2 x, exec (strobeRow s) s = next s1 ∧ exec (latchRow s) s1 = next s2 ∧ exec (txRow s) s = next x ∧
      step s = next
        { cfg := s.cfg, inputs := s.inputs.tail, tick := s.tick + 1, rdPrev := rd s, addr := s2.addr, log := s.log,
          rep := s.rep, tx := x.tx, lines := { bus := s2.lines.bus, txLine := x.lines.txLine } } ∧
      s2.log = s.log ∧ (fell s = true → aleP s = false → s2.addr = s.addr + 2#32)) ∧
  (∀ s : State, 9 ≤ s.rep.st.toNat → s.tx.busy = true → s.rep.txReady = true → step s = fault .readyWhileBusy) ∧
  (∀ s t : State, s.rep.st.toNat ≤ 8 → step s = next t → t.rep.st.toNat ≤ 8)

/-! ### Text -/

/-- R74: `ceil(L/4)` digits, digit `k` from the front being the nibble `n-1-k` of the value. R74 is for `L ≥ 1` and
`v < 2^L`; that a wider value keeps its low digits, and that `L` = 0 gives none, is the model's choice (log entry 17). -/
def Obligations.HexIsMostSignificantNibbleFirst : Prop :=
  ∀ v L k : Nat, (hex v L).length = digitCount L ∧ L ≤ 4 * digitCount L ∧ 4 * digitCount L < L + 4 ∧
    (k < digitCount L → (hex v L)[k]? = some (hexDigit (v / 2 ^ (4 * (digitCount L - 1 - k)) % 16)))

/-- R78: standard hex parsing of a field gives back its value. -/
def Obligations.HexRoundTrip : Prop :=
  ∀ v L : Nat, v < 2 ^ L → parseHex (hex v L) = some v

/-- R75 and R62 (the byte values of the digits, space, CR and LF are from general knowledge, the spec says; the index width
is decision D21): the digit table, and the layout of a record line, read back by hex parsing. -/
def Obligations.RecordLineLayout : Prop :=
  (List.range 16).map hexDigit =
    [0x30#8, 0x31#8, 0x32#8, 0x33#8, 0x34#8, 0x35#8, 0x36#8, 0x37#8, 0x38#8, 0x39#8,
      0x61#8, 0x62#8, 0x63#8, 0x64#8, 0x65#8, 0x66#8] ∧
  ∀ (p : Params) (i : Nat) (a : Addr) (d : Half), i < 2 ^ idxBits p →
    let l := recordLine p i (record a d)
    let n := idxDigits p
    l.length = recLen p ∧ parseHex (l.take n) = some i ∧ l[n]? = some 0x20#8 ∧
    parseHex ((l.drop (n + 1)).take 8) = some a.toNat ∧ l[n + 9]? = some 0x20#8 ∧
    parseHex ((l.drop (n + 10)).take 4) = some d.toNat ∧ l.drop (n + 14) = [0x0D#8, 0x0A#8]

/-! ### Serial transmitter (the reference design is decision D22) -/

/-- R135, R137: TX_IDLE clears the acknowledge; TX_ACCEPT takes the character into the frame, start bit 0, data bits least
significant first, stop bit 1; both show the idle line. -/
def Obligations.IdleTransmitterAcceptsACharacter : Prop :=
  ∀ s : State, s.tx.busy = false →
    exec .txIdle s = next { s with tx := { s.tx with ack := false }, lines := { s.lines with txLine := true } } ∧
    ∃ t, exec .txAccept s = next t ∧ t.tx.busy = true ∧ t.tx.bit.val = 0 ∧ t.tx.cnt = 0 ∧ t.tx.ack = false ∧
      t.tx.frame.getLsbD 0 = false ∧ t.tx.frame.getLsbD 9 = true ∧
      (∀ k, k < 8 → t.tx.frame.getLsbD (k + 1) = s.rep.txData.getLsbD k) ∧
      t = { s with tx := t.tx, lines := { s.lines with txLine := true } }

/-- R136, R138, R139: without a `tx_ready` the busy rows count the divider, move to the next bit, or end the frame with an
acknowledge, and show the frame's bit. -/
def Obligations.BusyTransmitterShiftsTheFrame : Prop :=
  ∀ s : State, s.tx.busy = true → s.rep.txReady = false →
    let lines : Lines := { s.lines with txLine := s.tx.frame.getLsbD s.tx.bit.val }
    exec .txHoldBit s = next { s with tx := { s.tx with cnt := s.tx.cnt + 1, ack := false }, lines := lines } ∧
    (s.tx.bit.val < 9 → ∃ t, exec .txNextBit s = next t ∧ t.tx.cnt = 0 ∧ t.tx.bit.val = s.tx.bit.val + 1 ∧
      t.tx.ack = false ∧ t.tx.busy = true ∧ t.tx.frame = s.tx.frame ∧ t = { s with tx := t.tx, lines := lines }) ∧
    exec .txFrameEnd s = next
      { s with tx := { s.tx with cnt := 0, bit := 0, busy := false, ack := true }, lines := lines }

/-- R140: a `tx_ready` while the transmitter is busy is a fault of the busy rows and stops the step. -/
def Obligations.ReadyWhileBusyFaults : Prop :=
  ∀ s : State, s.tx.busy = true → s.rep.txReady = true →
    exec .txHoldBit s = fault .readyWhileBusy ∧ exec .txNextBit s = fault .readyWhileBusy ∧
    exec .txFrameEnd s = fault .readyWhileBusy ∧ ∃ f, step s = fault f

/-- R139, R137, R178: a character accepted in a tick is on the line, bit by bit for `TX_DIV` ticks each, from the next tick
on; the acknowledge comes in the tick after the stop bit and in none before, and the machine leaves its acknowledge
wait right after it. -/
def Obligations.AcceptedCharacterIsSentBitByBit : Prop :=
  ∀ s : State, Inv s → s.rep.txReady = true →
    (∀ j, j < 10 * s.par.txDiv → ∃ t, run (j + 2) s = next t ∧
      t.lines.txLine = (serialFrame s.rep.txData).getLsbD (j / s.par.txDiv)) ∧
    (∀ k, k ≤ 10 * s.par.txDiv → ∃ t, run k s = next t ∧ t.tx.ack = false ∧ t.rep.st = s.rep.st) ∧
    (∃ t, run (10 * s.par.txDiv + 1) s = next t ∧ t.tx.ack = true ∧ t.rep.st = s.rep.st) ∧
    (∃ t, run (10 * s.par.txDiv + 2) s = next t ∧ t.tx.ack = false ∧ ackWait t.rep.st = false)

/-- R141: every tick of the core with the reference transmitter is a tick with a transmitter that meets the contract, but
for the transmitter's own inside (its frame, its counters and its line); the bus drive is the same. -/
def Obligations.ReferenceTransmitterMeetsTheContract : Prop :=
  ∀ s t : State, step s = next t → ∃ want u, stepAbstract want s = next u ∧
    { u with
      tx := { u.tx with frame := t.tx.frame, bit := t.tx.bit, cnt := t.tx.cnt }
      lines := { u.lines with txLine := t.lines.txLine } } = t

/-- R130, R131: in every run from power-on, with any transmitter that meets the contract, as many acknowledges have come
as characters have been shown, less the one that may be waiting. Under the fairness assumption of R141 (decision D22)
every character held is acknowledged in a later tick. -/
def Obligations.OneAcknowledgePerCharacter : Prop :=
  (∀ (c : Config) (ins : List InputWord) (ws : List Bool) (t : State), runAbstract ws (State.init c ins) = next t →
    (streamAbstract ws (State.init c ins)).length =
      acksAbstract ws (State.init c ins) + (if t.tx.busy = true ∨ t.tx.ack = true then 1 else 0)) ∧
  (∀ (c : Config) (ins : List InputWord) (w : Nat → Bool) (n : Nat) (t : State), FairChoices w (State.init c ins) →
    runAbstract (choices w n) (State.init c ins) = next t → holdsChar t = true →
    ∃ m u, n < m ∧ runAbstract (choices w m) (State.init c ins) = next u ∧ u.tx.ack = true)

/-! ### The report as a whole -/

/-- R65, R123 (inferences the spec marks as derived; the empty drain is decision D17), for every transmitter that meets the
contract (R134, R141), and for the reference transmitter: a run from power-on that has come to `done` has shown the
banner and then the line of every record of the log, in index order, and no other character. -/
def Obligations.StreamIsTheBannerAndTheLog : Prop :=
  (∀ (c : Config) (ins : List InputWord) (ws : List Bool) (t : State), runAbstract ws (State.init c ins) = next t →
    t.rep.st = St.done → streamAbstract ws (State.init c ins) = reportText t) ∧
  (∀ (c : Config) (ins : List InputWord) (n : Nat) (t : State), run n (State.init c ins) = next t →
    t.rep.st = St.done → stream n (State.init c ins) = reportText t)

/-- R148: from `done` on, no character is shown and the line stays 1, for ever. -/
def Obligations.SilenceAfterTheReport : Prop :=
  ∀ (n : Nat) (s : State), Inv s → s.rep.st = St.done →
    stream n s = [] ∧ ∃ t, run (n + 1) s = next t ∧ t.rep.st = St.done ∧ t.lines.txLine = true

/-- R149, R177 (inferences the spec marks as derived): whatever the bus does, the report is complete within the bound of
R177 with `wait_full` at its longest and the log full; with any other transmitter that meets the contract it is complete
after finitely many ticks, under the fairness assumption of R141 (decision D22). -/
def Obligations.ReportCompletesWithinItsBound : Prop :=
  (∀ (c : Config) (ins : List InputWord), ∃ k t, k ≤ reportBound c.params ∧ run k (State.init c ins) = next t ∧
    t.rep.st = St.done) ∧
  (∀ (c : Config) (ins : List InputWord) (w : Nat → Bool), FairChoices w (State.init c ins) →
    ∃ n t, runAbstract (choices w n) (State.init c ins) = next t ∧ t.rep.st = St.done)
end

