-- ==== Sys2Proof/Laws/State.lean ====
section
/-!
SUPPORT. One lemma per field of the shared updates of State and of the report registers, true by rfl.
-/

namespace Sys2Proof.Machine

variable (s b r t : State) (o : BusOut) (g : TxRegs) (q : ReportRegs) (c : Byte) (st' : Nibble)

/-! ### setBus -/

@[simp] theorem setBus_cfg : (setBus s o).cfg = s.cfg := rfl
@[simp] theorem setBus_inputs : (setBus s o).inputs = s.inputs := rfl
@[simp] theorem setBus_tick : (setBus s o).tick = s.tick := rfl
@[simp] theorem setBus_rdPrev : (setBus s o).rdPrev = s.rdPrev := rfl
@[simp] theorem setBus_addr : (setBus s o).addr = s.addr := rfl
@[simp] theorem setBus_log : (setBus s o).log = s.log := rfl
@[simp] theorem setBus_rep : (setBus s o).rep = s.rep := rfl
@[simp] theorem setBus_tx : (setBus s o).tx = s.tx := rfl
@[simp] theorem setBus_bus : (setBus s o).lines.bus = o := rfl
@[simp] theorem setBus_txLine : (setBus s o).lines.txLine = s.lines.txLine := rfl

/-! ### transmit -/

@[simp] theorem transmit_cfg : (transmit s g).cfg = s.cfg := rfl
@[simp] theorem transmit_inputs : (transmit s g).inputs = s.inputs := rfl
@[simp] theorem transmit_tick : (transmit s g).tick = s.tick := rfl
@[simp] theorem transmit_rdPrev : (transmit s g).rdPrev = s.rdPrev := rfl
@[simp] theorem transmit_addr : (transmit s g).addr = s.addr := rfl
@[simp] theorem transmit_log : (transmit s g).log = s.log := rfl
@[simp] theorem transmit_rep : (transmit s g).rep = s.rep := rfl
@[simp] theorem transmit_tx : (transmit s g).tx = g := rfl
@[simp] theorem transmit_bus : (transmit s g).lines.bus = s.lines.bus := rfl
@[simp] theorem transmit_txLine : (transmit s g).lines.txLine = txLine s := rfl

/-! ### commit -/

@[simp] theorem commit_cfg : (commit s b r t).cfg = s.cfg := rfl
@[simp] theorem commit_inputs : (commit s b r t).inputs = s.inputs.tail := rfl
@[simp] theorem commit_tick : (commit s b r t).tick = s.tick + 1 := rfl
@[simp] theorem commit_rdPrev : (commit s b r t).rdPrev = rd s := rfl
@[simp] theorem commit_addr : (commit s b r t).addr = b.addr := rfl
@[simp] theorem commit_log : (commit s b r t).log = b.log := rfl
@[simp] theorem commit_rep : (commit s b r t).rep = r.rep := rfl
@[simp] theorem commit_tx : (commit s b r t).tx = t.tx := rfl
@[simp] theorem commit_bus : (commit s b r t).lines.bus = b.lines.bus := rfl
@[simp] theorem commit_txLine : (commit s b r t).lines.txLine = t.lines.txLine := rfl

/-! ### quiet and send -/

@[simp] theorem quiet_st : (quiet q).st = q.st := rfl
@[simp] theorem quiet_cidx : (quiet q).cidx = q.cidx := rfl
@[simp] theorem quiet_dly : (quiet q).dly = q.dly := rfl
@[simp] theorem quiet_tmo : (quiet q).tmo = q.tmo := rfl
@[simp] theorem quiet_rp : (quiet q).rp = q.rp := rfl
@[simp] theorem quiet_txReady : (quiet q).txReady = false := rfl
@[simp] theorem quiet_txData : (quiet q).txData = q.txData := rfl
@[simp] theorem send_st : (send q c st').st = st' := rfl
@[simp] theorem send_cidx : (send q c st').cidx = q.cidx := rfl
@[simp] theorem send_dly : (send q c st').dly = q.dly := rfl
@[simp] theorem send_tmo : (send q c st').tmo = q.tmo := rfl
@[simp] theorem send_rp : (send q c st').rp = q.rp := rfl
@[simp] theorem send_txReady : (send q c st').txReady = true := rfl
@[simp] theorem send_txData : (send q c st').txData = c := rfl

/-! ### The log operations -/

@[simp] theorem skipped_wp : (skipped s).wp = s.log.wp := rfl
@[simp] theorem skipped_cells : (skipped s).cells = s.log.cells := rfl
@[simp] theorem skipped_skip : (skipped s).skip = s.log.skip - 1 := rfl
@[simp] theorem appended_skip : (appended s).skip = s.log.skip := by unfold appended; split <;> rfl

end Sys2Proof.Machine
end

