-- ==== Sys2Proof/Laws/Ops.lean ====
section
/-!
SUPPORT. What each shared operation can do, said once: sequencing, the log storage, the ROM, the decode words.
-/

namespace Sys2Proof.Machine

/-! ### Sequencing -/

@[simp] theorem andThen_next (s : State) (k : State → Host.Outcome State Fault Refusal) :
    andThen (.next s) k = k s := rfl

@[simp] theorem andThen_fault (f : Fault) (k : State → Host.Outcome State Fault Refusal) :
    andThen (.fault f) k = .fault f := rfl

@[simp] theorem andThen_refused (x : Refusal) (k : State → Host.Outcome State Fault Refusal) :
    andThen (.refused x) k = .refused x := rfl

/-- A sequence answers a next state exactly when both parts do. -/
theorem andThen_eq_next {o : Host.Outcome State Fault Refusal} {k : State → Host.Outcome State Fault Refusal}
    {t : State} : andThen o k = .next t ↔ ∃ s, o = .next s ∧ k s = .next t := by
  cases o <;> simp

/-! ### The log storage -/

theorem Memory.write_keys_mem (m : Memory) (i : Nat) (v : Record) (k : Nat) :
    k ∈ (Memory.write m i v).map Prod.fst → k = i ∨ k ∈ m.map Prod.fst := by
  induction m with
  | nil => simp [Memory.write]
  | cons c m ih =>
    obtain ⟨j, u⟩ := c
    simp only [Memory.write]
    split
    · simp
    · split
      · rename_i h; subst h; simp
      · simp only [List.map_cons, List.mem_cons]
        rintro (h | h)
        · exact .inr (.inl h)
        · rcases ih h with h | h
          · exact .inl h
          · exact .inr (.inr h)

/-- Reading after a write: the record written at its index, and what stood there at every other (R47). -/
theorem Memory.read_write (m : Memory) (i : Nat) (v : Record) (j : Nat) :
    Memory.read (Memory.write m i v) j = if j = i then some v else Memory.read m j := by
  induction m with
  | nil => simp [Memory.write, Memory.read]
  | cons c m ih =>
    obtain ⟨k, u⟩ := c
    simp only [Memory.write]
    split
    · simp [Memory.read]
    · split
      · rename_i _ h
        subst h
        simp only [Memory.read]
        split <;> rfl
      · simp only [Memory.read, ih]
        split
        · rename_i _ _ h
          subst h
          split <;> simp_all
        · rfl

/-- A write past every listed index appends. -/
theorem Memory.write_append (m : Memory) (n : Nat) (v : Record) (h : ∀ k ∈ m.map Prod.fst, k < n) :
    Memory.write m n v = m ++ [(n, v)] := by
  induction m with
  | nil => rfl
  | cons c m ih =>
    obtain ⟨j, u⟩ := c
    simp only [List.map_cons, List.mem_cons, forall_eq_or_imp] at h
    simp only [Memory.write]
    rw [if_neg (by omega), if_neg (by omega), ih h.2]
    rfl

/-- An index has no value exactly when it is not listed. -/
theorem Memory.read_eq_none (m : Memory) (i : Nat) : Memory.read m i = none ↔ i ∉ m.map Prod.fst := by
  induction m with
  | nil => simp [Memory.read, Memory.unlisted]
  | cons c m ih =>
    obtain ⟨j, u⟩ := c
    simp only [Memory.read]
    split <;> simp_all

/-- A write keeps the canonical form. -/
theorem Memory.write_wf (m : Memory) (i : Nat) (v : Record) (h : Memory.wf m) : Memory.wf (Memory.write m i v) := by
  induction m with
  | nil => simp [Memory.write, Memory.wf]
  | cons c m ih =>
    obtain ⟨j, u⟩ := c
    simp only [Memory.wf, List.map_cons, List.pairwise_cons] at h ih ⊢
    obtain ⟨hj, hm⟩ := h
    simp only [Memory.write]
    split
    · rename_i hij
      simp only [List.map_cons, List.pairwise_cons, List.mem_cons]
      refine ⟨?_, hj, hm⟩
      rintro k (rfl | hk)
      · exact hij
      · exact Nat.lt_trans hij (hj k hk)
    · split
      · rename_i _ hij
        subst hij
        simp only [List.map_cons, List.pairwise_cons]
        exact ⟨hj, hm⟩
      · simp only [List.map_cons, List.pairwise_cons]
        refine ⟨?_, ih hm⟩
        intro k hk
        rcases Memory.write_keys_mem m i v k hk with rfl | hk
        · omega
        · exact hj k hk

/-- A `LogWrite` keeps the canonical form. -/
theorem logWrite_wf (p : Params) (m : Memory) (i : Nat) (v : Record) (h : Memory.wf m) :
    Memory.wf (logWrite p m i v) := by
  unfold logWrite
  split
  · exact Memory.write_wf m i v h
  · exact h

/-- An append keeps the canonical form of the log. -/
theorem appended_wf (s : State) (h : Memory.wf s.log.cells) : Memory.wf (appended s).cells := by
  unfold appended
  split
  · exact logWrite_wf _ _ _ _ h
  · exact h

/-- An append changes no record but the one at `wp` (R103). -/
theorem appended_read (s : State) (k : Nat) (h : k ≠ s.log.wp) :
    logRead s.par (appended s).cells k = logRead s.par s.log.cells k := by
  unfold appended
  split
  · rename_i hc
    simp [logRead, logWrite, hc, Memory.read_write, h]
  · rfl

/-- Nor does a log step (R101 to R104). -/
theorem logStep_read (s : State) (k : Nat) (h : k ≠ s.log.wp) :
    logRead s.par (logStep s).cells k = logRead s.par s.log.cells k := by
  unfold logStep
  split
  · split
    · rfl
    · split
      · exact appended_read s k h
      · rfl
  · rfl

/-- The log step keeps the canonical form of the log. -/
theorem logStep_wf (s : State) (h : Memory.wf s.log.cells) : Memory.wf (logStep s).cells := by
  unfold logStep
  split
  · split
    · exact h
    · split
      · exact appended_wf s h
      · exact h
  · exact h

/-- The log at power-on has the canonical form. -/
theorem reset_log_wf : Memory.wf State.reset.log.cells := List.Pairwise.nil

/-! ### The configuration -/

/-- What R5 asks of an accepted configuration. -/
theorem Config.bounds (c : Config) :
    1 ≤ c.params.cap ∧ 1 ≤ c.params.dChar ∧ 1 ≤ c.params.dRec ∧ 1 ≤ c.params.bannerLen ∧ 1 ≤ c.params.romWords ∧
      (c.params.romMask >>> 1).toNat < c.params.romWords ∧ 1 ≤ c.params.txDiv := by
  have h := c.ok
  simp only [Params.accepted, Params.wf, Params.capOk, Params.dCharOk, Params.dRecOk, Params.bannerOk, Params.romOk,
    Params.maskOk, Params.txDivOk, Bool.and_eq_true, decide_eq_true_eq] at h
  omega

/-! ### The ROM -/

/-- The word at an address is the image's word at its index (R44). -/
theorem romRead_romIndex (c : Config) (a : Addr) : romRead c.params (romIndex c.params a) = some (romWord c a) := by
  simp [romRead, romWord, romIndex_lt c a]

/-! ### The decode words -/

theorem decodeWord_getLsbD (s : State) (i : Nat) (h : i < 20) :
    (decodeWord s).getLsbD i = (inputWord s).getLsbD i := by
  rw [decodeWord, BitVec.getLsbD_append, if_pos h]

theorem decodeWord_rdPrev (s : State) : (decodeWord s).getLsbD 20 = s.rdPrev := by
  rw [decodeWord, BitVec.getLsbD_append, if_neg (by decide)]
  cases s.rdPrev <;> rfl

theorem decodeWord_operand (s : State) : dwOperand (decodeWord s) = adIn s := by
  apply BitVec.eq_of_getLsbD_eq
  intro i hi
  simp only [dwOperand, adIn, BitVec.getLsbD_extractLsb', hi, decide_true, Bool.true_and]
  exact decodeWord_getLsbD s (4 + i) (by omega)

end Sys2Proof.Machine
end

