-- ==== Sys2Proof/Laws/PerInstr.lean ====
section
/-!
SUPPORT. The per-instruction family of LAWS.json: the word of each row fits its format and has the fixed bits of the
opcode table's match and mask columns.
-/

namespace Sys2Proof.Laws.FixedBits

/-- The encoding of `i` is a word of its format that meets its row's mask and match. -/
def Statement (i : Instr) : Prop := encode i < 2 ^ i.format.width ∧ i.rowMatches (encode i)

theorem latchHi (d : Half) : Statement (.latchHi d) := by
  have h : (3 + d.toNat * 16) &&& 3 = 3 := by
    have := Nat.and_two_pow_sub_one_eq_mod (3 + d.toNat * 16) 2
    simp only [Nat.reducePow, Nat.reduceSub] at this
    omega
  have := d.isLt
  exact ⟨by simp only [encode, Instr.matchBits, Instr.operandBits, Instr.format, Format.width]; omega, h⟩

theorem latchLo (d : Half) : Statement (.latchLo d) := by
  have h : (1 + d.toNat * 16) &&& 3 = 1 := by
    have := Nat.and_two_pow_sub_one_eq_mod (1 + d.toNat * 16) 2
    simp only [Nat.reducePow, Nat.reduceSub] at this
    omega
  have := d.isLt
  exact ⟨by simp only [encode, Instr.matchBits, Instr.operandBits, Instr.format, Format.width]; omega, h⟩

theorem latchNone : Statement .latchNone := ⟨by decide, rfl⟩
theorem rdIdle : Statement .rdIdle := ⟨by decide, rfl⟩
theorem rdRise : Statement .rdRise := ⟨by decide, rfl⟩
theorem rdHold : Statement .rdHold := ⟨by decide, rfl⟩
theorem rdFall : Statement .rdFall := ⟨by decide, rfl⟩
theorem stSendInitialChar : Statement .stSendInitialChar := ⟨by decide, rfl⟩
theorem stInitWaitAck : Statement .stInitWaitAck := ⟨by decide, rfl⟩
theorem stInitialWait : Statement .stInitialWait := ⟨by decide, rfl⟩
theorem stWaitFull : Statement .stWaitFull := ⟨by decide, rfl⟩
theorem stSendChar : Statement .stSendChar := ⟨by decide, rfl⟩
theorem stWaitAck : Statement .stWaitAck := ⟨by decide, rfl⟩
theorem stWait : Statement .stWait := ⟨by decide, rfl⟩
theorem stActualDelay : Statement .stActualDelay := ⟨by decide, rfl⟩
theorem stDone : Statement .stDone := ⟨by decide, rfl⟩
theorem txIdle : Statement .txIdle := ⟨by decide, rfl⟩
theorem txAccept : Statement .txAccept := ⟨by decide, rfl⟩
theorem txHoldBit : Statement .txHoldBit := ⟨by decide, rfl⟩
theorem txNextBit : Statement .txNextBit := ⟨by decide, rfl⟩
theorem txFrameEnd : Statement .txFrameEnd := ⟨by decide, rfl⟩
theorem captureNone : Statement .captureNone := ⟨by decide, rfl⟩
theorem captureGated : Statement .captureGated := ⟨by decide, rfl⟩
theorem captureSkip : Statement .captureSkip := ⟨by decide, rfl⟩
theorem captureAppend : Statement .captureAppend := ⟨by decide, rfl⟩
theorem captureDrop : Statement .captureDrop := ⟨by decide, rfl⟩

end Sys2Proof.Laws.FixedBits
end

