-- ==== Sys2Proof/Laws/Step.lean ====
section
/-!
SUPPORT. What a tick can do, said once: the bus side as one next state, the frames of the report side and of the
transmitter, and the inversion of a step over them.
-/

namespace Sys2Proof.Machine

/-- The one next value of `addr` (R84). -/
def addrNext (s : State) : Addr :=
  let a1 := if fell s then advance s.addr else s.addr
  if aleP s then (if aleS s then setHigh a1 (adIn s) else setLow a1 (adIn s)) else a1

/-- The state the bus side of a tick answers: `addr`, the log and the bus, and nothing else. -/
def busNext (s : State) : State :=
  { s with
    addr := addrNext s
    log := if fell s then logStep s else s.log
    lines := { s.lines with bus := if rd s then romDrive s else .released } }

@[simp] theorem busNext_addr (s : State) : (busNext s).addr = addrNext s := rfl
@[simp] theorem busNext_log (s : State) : (busNext s).log = if fell s then logStep s else s.log := rfl
@[simp] theorem busNext_bus (s : State) : (busNext s).lines.bus = if rd s then romDrive s else .released := rfl
@[simp] theorem busNext_rep (s : State) : (busNext s).rep = s.rep := rfl
@[simp] theorem busNext_tx (s : State) : (busNext s).tx = s.tx := rfl

/-- The strobe row by `Q` = `rd_prev` and `R` = `rd` (R58). -/
theorem strobeRow_eq (s : State) :
    strobeRow s = match s.rdPrev, rd s with
      | false, false => .rdIdle
      | false, true => .rdRise
      | true, true => .rdHold
      | true, false => .rdFall := by
  simp only [strobeRow, decodeStrobe, decodeWord_getLsbD s 2 (by decide), decodeWord_rdPrev, rd]
    <;> rfl

/-- The latch row by `P` = `ale_p` and `S` = `ale_s` (R57). -/
theorem latchRow_eq (s : State) :
    latchRow s = match aleP s, aleS s with
      | true, true => .latchHi (adIn s)
      | true, false => .latchLo (adIn s)
      | false, _ => .latchNone := by
  simp only [latchRow, decodeLatch, decodeWord_getLsbD s 0 (by decide), decodeWord_getLsbD s 1 (by decide),
    decodeWord_operand, aleP, aleS]
    <;> rfl

/-- The state the strobe row answers. -/
theorem exec_strobeRow (s : State) :
    exec (strobeRow s) s = .next { s with
      addr := if fell s then advance s.addr else s.addr
      log := if fell s then logStep s else s.log
      lines := { s.lines with bus := if rd s then romDrive s else .released } } := by
  rw [strobeRow_eq]
  cases hq : s.rdPrev <;> cases hr : rd s <;>
    simp [exec, execRdIdle, execRdRise, execRdHold, execRdFall, setBus, fell, hq, hr]

/-- The bus side always answers a next state (R155, R66). -/
theorem busSide_eq (s : State) : busSide s = .next (busNext s) := by
  simp only [busSide, exec_strobeRow, andThen_next, latchRow_eq]
  cases hp : aleP s <;> cases hs : aleS s <;>
    simp [exec, execLatchHi, execLatchLo, execLatchNone, busNext, addrNext, hp, hs]

/-- A tick is the bus side's next state committed with the report side's and the transmitter's. -/
theorem tickWith_eq (s : State) (x : Host.Outcome State Fault Refusal) :
    tickWith s x = andThen (reportSide s) fun r => andThen x fun t => .next (commit s (busNext s) r t) := by
  simp [tickWith, busSide_eq]

/-- The inversion of a tick: it answers `t` exactly when the report side and the transmitter answer next states, and
`t` is the commit. -/
theorem tickWith_eq_next {s t : State} {x : Host.Outcome State Fault Refusal} :
    tickWith s x = .next t ↔ ∃ r u, reportSide s = .next r ∧ x = .next u ∧ t = commit s (busNext s) r u := by
  simp only [tickWith_eq, andThen_eq_next]
  constructor
  · rintro ⟨r, hr, u, hu, h⟩
    exact ⟨r, u, hr, hu, by cases h; rfl⟩
  · rintro ⟨r, u, hr, hu, rfl⟩
    exact ⟨r, hr, u, hu, rfl⟩

theorem step_eq_next {s t : State} :
    step s = .next t ↔
      ∃ r u, reportSide s = .next r ∧ exec (txRow s) s = .next u ∧ t = commit s (busNext s) r u := tickWith_eq_next

theorem stepAbstract_eq_next {w : Bool} {s t : State} :
    stepAbstract w s = .next t ↔
      ∃ r u, reportSide s = .next r ∧ abstractTx w s = .next u ∧ t = commit s (busNext s) r u := tickWith_eq_next

/-- The transmitter's row faults exactly on a `tx_ready` while busy (R140). -/
theorem txRow_fault (s : State) (h : s.tx.busy = true) (hr : s.rep.txReady = true) :
    exec (txRow s) s = .fault .readyWhileBusy := by
  simp only [txRow, decodeTx, h]
  cases cntEnd s <;> cases bitEnd s <;> simp [exec, execTxHoldBit, execTxNextBit, execTxFrameEnd, transmitBusy, h, hr]

/-- The registers a transmitter row leaves when it does not fault (R135, R136, R138). -/
def txNext (s : State) : TxRegs :=
  if s.tx.busy then
    if cntEnd s then
      if bitEnd s then { s.tx with cnt := 0, bit := 0, busy := false, ack := true }
      else { s.tx with cnt := 0, bit := s.tx.bit + 1, ack := false }
    else { s.tx with cnt := s.tx.cnt + 1, ack := false }
  else if s.rep.txReady then
    { busy := true, frame := serialFrame s.rep.txData, bit := 0, cnt := 0, ack := false }
  else { s.tx with ack := false }

/-- The transmitter's row otherwise answers its registers and the line, and nothing else. -/
theorem txRow_next (s : State) (h : s.tx.busy = false ∨ s.rep.txReady = false) :
    exec (txRow s) s = .next (transmit s (txNext s)) := by
  simp only [txRow, decodeTx, txNext]
  cases hb : s.tx.busy <;> cases hr : s.rep.txReady <;> cases cntEnd s <;> cases bitEnd s <;>
    simp_all [exec, execTxIdle, execTxAccept, execTxHoldBit, execTxNextBit, execTxFrameEnd, transmitBusy]

/-- With an unused state code the report side has no step (R60). -/
theorem reportSide_unused (s : State) (h : 9 ≤ s.rep.st.toNat) : reportSide s = .next s := by
  unfold reportSide fsmRow decodeFsm
  split
  · rename_i hi
    split at hi <;> first | omega | cases hi
  · rfl

/-- The report side writes the report registers only. -/
theorem reportSide_frame {s r : State} (h : reportSide s = .next r) : r = { s with rep := r.rep } := by
  unfold reportSide at h
  split at h
  · rename_i i hi
    unfold fsmRow decodeFsm at hi
    split at hi <;> cases hi <;> simp only [exec] at h
    case h_5 =>
      unfold execStSendChar at h
      split at h
      · cases h; rfl
      · split at h <;> cases h; rfl
    all_goals cases h; rfl
  · cases h; rfl

end Sys2Proof.Machine
end

