-- ==== Sys2Proof/Laws/Run.lean ====
section
/-!
SUPPORT. Runs cut into a first part and a rest, and what the abstract transmitter does in a tick.
-/

namespace Sys2Proof.Machine

theorem andThen_assoc (o : Host.Outcome State Fault Refusal) (f g : State → Host.Outcome State Fault Refusal) :
    andThen (andThen o f) g = andThen o fun s => andThen (f s) g := by cases o <;> rfl

theorem run_add (m n : Nat) (s : State) : run (m + n) s = andThen (run m s) (run n) := by
  induction m generalizing s with
  | zero => simp [run]
  | succ m ih =>
    rw [Nat.succ_add, run, run, andThen_assoc]
    congr 1
    exact funext ih

theorem runAbstract_append (xs ys : List Bool) (s : State) :
    runAbstract (xs ++ ys) s = andThen (runAbstract xs s) (runAbstract ys) := by
  induction xs generalizing s with
  | nil => rfl
  | cons x xs ih =>
    rw [List.cons_append, runAbstract, runAbstract, andThen_assoc]
    congr 1
    exact funext ih

@[simp] theorem choices_zero (w : Nat → Bool) : choices w 0 = [] := rfl

theorem choices_succ (w : Nat → Bool) (n : Nat) : choices w (n + 1) = choices w n ++ [w n] := by
  simp [choices, List.range_succ]

/-- A run of `n + 1` choices is a run of the first `n` and one tick more. -/
theorem runAbstract_choices_succ (w : Nat → Bool) (n : Nat) (s : State) :
    runAbstract (choices w (n + 1)) s = andThen (runAbstract (choices w n) s) (stepAbstract (w n)) := by
  rw [choices_succ, runAbstract_append]
  congr 1
  funext t
  simp only [runAbstract]
  cases stepAbstract (w n) t <;> rfl

/-- The abstract transmitter without a `tx_ready` over a held character: it keeps the character or acknowledges it, and
writes nothing of the core but its own registers and line. -/
theorem abstractTx_next (want : Bool) (s : State) (h : s.tx.busy = false ∨ s.rep.txReady = false) :
    abstractTx want s = .next { s with
      tx := { s.tx with busy := holdsChar s && !want, ack := holdsChar s && want }
      lines := { s.lines with txLine := Config.freeLine s.tick } } := by
  rcases h with h | h <;> simp [abstractTx, h]

/-- With one it faults (R133). -/
theorem abstractTx_fault (want : Bool) (s : State) (hb : s.tx.busy = true) (hr : s.rep.txReady = true) :
    abstractTx want s = .fault .readyWhileBusy := by
  simp [abstractTx, hb, hr]

end Sys2Proof.Machine
end

