-- ==== Sys2Proof/Tests/Slice0.lean ====
section
/-!
SUPPORT. Tests: the decode words of the spec written out by hand, the ill-formed terms each check refuses, one-step
vectors of 95_test_vectors.md, and for each statement with hypotheses a state that meets them.
-/

namespace Sys2Proof.Tests

open Sys2Proof Sys2Proof.Machine Host.Outcome

/-! ### Small states -/

/-- Scenario A's image and capacity (95_test_vectors.md 1.1), with a banner of two bytes and delays of two ticks. -/
def par : Params where
  cap := 4
  skip := 2
  dChar := 2
  dRec := 2
  tFull := 20
  banner := [0x1B#8, 0x5B#8]
  rom := [0x1111#16, 0x2222#16, 0x3333#16, 0x4444#16]
  romMask := 0x7#32
  romSignature := 0x1111#16
  txDiv := 4
  addrCollision := .latchOverIncrement

def cfg : Config := ⟨par, by decide⟩

/-- Program P4's shape: one banner byte, no timeout, `TX_DIV` = 1. -/
def shortCfg : Config :=
  ⟨{ par with cap := 1, skip := 0, dChar := 1, dRec := 1, tFull := 0, banner := [0x41#8], txDiv := 1 }, by decide⟩

/-- Power-on with a stimulus. -/
def start (ins : List InputWord) : State := State.init cfg ins

/-- A state of the report machine on an idle bus. -/
def inState (st : Nibble) : State :=
  let s := start [0x00000#20]
  { s with rep := { s.rep with st := st } }

/-- A tick with a falling edge. -/
def falling (st : Nibble) (skip wp : Nat) (a : Addr) : State :=
  let s := start [0x00000#20]
  { s with rdPrev := true, addr := a, rep := { s.rep with st := st }, log := { skip := skip, wp := wp, cells := [] } }

/-- A full log in the drain. -/
def draining (st : Nibble) (cidx dly rp wp : Nat) : State :=
  let s := start [0x00000#20]
  { s with
    rep := { s.rep with st := st, cidx := cidx, dly := dly, rp := rp }
    log := { skip := 0, wp := wp, cells := [(0, record 0x12345678#32 0xBEEF#16), (1, record 0x2#32 0x2222#16)] } }

/-- A busy transmitter on an idle bus. -/
def sending (cnt : Nat) (bit : Fin 10) : State :=
  let s := inState St.waitAck
  { s with tx := { busy := true, frame := 0x282#10, bit := bit, cnt := cnt, ack := false } }

/-- What a part of the state is after a next state. -/
def after {α : Type} (o : Host.Outcome State Fault Refusal) (f : State → α) : Option α :=
  match o with
  | .next t => some (f t)
  | _ => none

/-! ### Decoding: one word of each row, from the tables of 30_encoding.md -/

theorem test_decode_latchHi : decode .latch 0b0_0001_0010_0011_0100_0_0_1_1 = .ok (.latchHi 0x1234#16) := by decide
theorem test_decode_latchLo : decode .latch 0b0_1010_1011_1100_1101_0_0_0_1 = .ok (.latchLo 0xABCD#16) := by decide
theorem test_decode_latchNone : decode .latch 0b0_0101_0101_0101_0101_0_0_1_0 = .ok .latchNone := by decide
theorem test_decode_rdIdle : decode .strobe 0b0_0000_0000_0000_0000_1_0_1_1 = .ok .rdIdle := by decide
theorem test_decode_rdRise : decode .strobe 0b0_0000_0000_0000_0000_0_1_1_0 = .ok .rdRise := by decide
theorem test_decode_rdHold : decode .strobe 0b1_1010_1011_1100_1101_0_1_0_1 = .ok .rdHold := by decide
theorem test_decode_rdFall : decode .strobe 0b1_0001_0010_0011_0100_0_0_1_1 = .ok .rdFall := by decide
theorem test_decode_states :
    [0b0000, 0b0001, 0b0010, 0b0011, 0b0100, 0b0101, 0b0110, 0b0111, 0b1000].map (decode .fsmState) =
      [.ok .stSendInitialChar, .ok .stInitWaitAck, .ok .stInitialWait, .ok .stWaitFull, .ok .stSendChar,
        .ok .stWaitAck, .ok .stWait, .ok .stActualDelay, .ok .stDone] := by decide
theorem test_decode_transmitter :
    [0b0011, 0b0100, 0b1001, 0b1110, 0b1011].map (decode .txState) =
      [.ok .txIdle, .ok .txAccept, .ok .txHoldBit, .ok .txNextBit, .ok .txFrameEnd] := by decide
theorem test_decode_logStep :
    [0b0111, 0b1011, 0b1110, 0b1101, 0b1100].map (decode .logStep) =
      [.ok .captureNone, .ok .captureGated, .ok .captureSkip, .ok .captureAppend, .ok .captureDrop] := by decide
theorem test_decode_rejects :
    decode .fsmState 0b1001 = .error (.reservedStateCode 0b1001#4) ∧
    decode .latch 0x200000 = .error (.wordTooWide .latch 0x200000) := by decide

/-! ### WellFormed: each check refuses an ill-formed term (R5, R150, R68) -/

theorem smoke_par : par.wf = true ∧ par.accepted = true := by decide
theorem smoke_cap : { par with cap := 0 }.wf = false := by decide
theorem smoke_dChar : { par with dChar := 0 }.wf = false := by decide
theorem smoke_dRec : { par with dRec := 0 }.wf = false := by decide
theorem smoke_banner : { par with banner := [] }.wf = false := by decide
theorem smoke_rom : { par with rom := [] }.romOk = false := by decide
/-- Vector B5. -/
theorem smoke_mask : { par with romMask := 0xF#32 }.wf = false := by decide
theorem smoke_txDiv : { par with txDiv := 0 }.wf = false := by decide
/-- Scenario D. -/
theorem smoke_signature : { par with romSignature := 0x2222#16 }.accepted = false := by decide
theorem smoke_script : Stmt.wf (.read 0) = false ∧ Stmt.wf (.idle 0) = false ∧ Stmt.wf (.word 0#20 0) = false ∧
    Stmt.wf (.read 1) = true := by decide

/-! ### One-step vectors (95_test_vectors.md section 2) -/

/-- A1 and A2. -/
theorem test_latchHi : after (step { start [0x12343#20] with addr := 0x00005678#32 }) (·.addr) = some 0x12345678#32 := by
  decide
theorem test_latchLo : after (step { start [0xABCD1#20] with addr := 0x12340000#32 }) (·.addr) = some 0x1234ABCD#32 := by
  decide
/-- A3. -/
theorem test_latchNone : after (step { start [0x55552#20] with addr := 0x12345678#32 }) (·.addr) = some 0x12345678#32 := by
  decide
/-- A7, A8 and A9. -/
theorem test_rdFall_wraps : after (step (falling St.done 0 0 0xFFFFFFFE#32)) (·.addr) = some 0#32 := by decide
theorem test_latch_over_increment :
    after (step { falling St.done 0 0 0x0000FFFE#32 with inputs := [0x12341#20] }) (·.addr) = some 0x00011234#32 ∧
    after (step { falling St.done 0 0 0x0000FFFE#32 with inputs := [0xABCD3#20] }) (·.addr) = some 0xABCD0000#32 := by
  decide
/-- B1, B2 and B6. -/
theorem test_rdRise : after (step { start [0x00004#20] with addr := 0xFFFFFFFF#32 }) (·.lines.bus) =
    some (.driven 0x4444#16) := by decide
theorem test_rdHold : after (step { inState St.done with inputs := [0x00004#20], rdPrev := true, addr := 0x3#32 })
    (·.lines.bus) = some (.driven 0x2222#16) := by decide
theorem test_rdIdle : after (step (start [0x00000#20])) (·.lines.bus) = some .released := by decide
/-- B4. -/
theorem test_loadRom : loadRom 2 [0x34#8, 0x12#8, 0xCD#8, 0xAB#8] = [0x1234#16, 0xABCD#16] := by decide
/-- G1 and G8. -/
theorem test_captureSkip : after (step (falling St.waitFull 2 0 0#32)) (·.log) = some ⟨1, 0, []⟩ ∧
    after (step (falling St.waitFull 3 4 0#32)) (·.log) = some ⟨2, 4, []⟩ := by decide
/-- G2. -/
theorem test_captureAppend : after (step (falling St.initWaitAck 0 0 0x2#32)) (·.log) =
    some ⟨0, 1, [(0, record 0x2#32 0x2222#16)]⟩ := by decide
/-- G3, G4 and G7. -/
theorem test_captureDrop : after (step (falling St.initialWait 0 4 0x8#32)) (·.log) = some ⟨0, 4, []⟩ := by decide
theorem test_captureGated : after (step (falling St.waitAck 1 0 0#32)) (·.log) = some ⟨1, 0, []⟩ := by decide
theorem test_captureGated_advances : after (step (falling St.done 0 1 0x4#32)) (·.addr) = some 0x6#32 := by decide
/-- F1. -/
theorem test_stSendInitialChar :
    after (step (draining St.sendInitialChar 1 0 0 0)) (fun t => (t.rep.txData, t.rep.txReady, t.rep.st)) =
      some (0x5B#8, true, St.initWaitAck) := by decide
/-- F3 and F4. -/
theorem test_stInitWaitAck :
    after (exec .stInitWaitAck { draining St.initWaitAck 1 0 0 0 with tx := ⟨false, 0#10, 0, 0, true⟩ })
      (fun t => (t.rep.cidx, t.rep.st)) = some (0, St.waitFull) ∧
    after (exec .stInitWaitAck { draining St.initWaitAck 0 0 0 0 with tx := ⟨false, 0#10, 0, 0, true⟩ })
      (fun t => (t.rep.cidx, t.rep.st)) = some (1, St.initialWait) := by decide
/-- F6. -/
theorem test_stInitialWait : after (step (draining St.initialWait 0 1 0 0)) (fun t => (t.rep.dly, t.rep.st)) =
    some (0, St.sendInitialChar) := by decide
/-- F7 and F9. -/
theorem test_stWaitFull : after (step (draining St.waitFull 0 0 0 4)) (fun t => (t.rep.tmo, t.rep.st)) =
    some (20, St.sendChar) ∧ after (step (draining St.waitFull 0 0 0 1)) (fun t => (t.rep.tmo, t.rep.st)) =
    some (19, St.waitFull) := by decide
/-- F10, at `IDX_BITS` = 2: the first digit of the address, and the line feed. -/
theorem test_stSendChar : after (step (draining St.sendChar 2 0 0 2)) (fun t => (t.rep.txData, t.rep.st)) =
    some (0x31#8, St.waitAck) ∧ after (step (draining St.sendChar 16 0 0 2)) (·.rep.txData) = some 0x0A#8 := by decide
/-- F11. -/
theorem test_stSendChar_empty : after (step (inState St.sendChar)) (fun t => (t.rep.txReady, t.rep.st)) =
    some (false, St.done) := by decide
/-- F12, at `REC_LEN` = 17. -/
theorem test_stWaitAck :
    after (exec .stWaitAck { draining St.waitAck 16 0 0 2 with tx := ⟨false, 0#10, 0, 0, true⟩ })
      (fun t => (t.rep.cidx, t.rep.st)) = some (0, St.actualDelay) := by decide
/-- F16. -/
theorem test_stWait : after (step (draining St.wait 5 0 0 2)) (fun t => (t.rep.dly, t.rep.st)) =
    some (1, St.wait) := by decide
/-- F18 and F19. -/
theorem test_stActualDelay : after (step (draining St.actualDelay 0 1 0 2)) (fun t => (t.rep.rp, t.rep.st)) =
    some (1, St.sendChar) ∧ after (step (draining St.actualDelay 0 1 1 2)) (fun t => (t.rep.rp, t.rep.st)) =
    some (1, St.done) := by decide
/-- F21. -/
theorem test_stDone : after (step (inState St.done)) (fun t => (t.rep.txReady, t.rep.st)) =
    some (false, St.done) := by decide
/-- T1. -/
theorem test_txIdle : after (step { inState St.waitFull with tx := ⟨false, 0x3FF#10, 0, 0, true⟩ })
    (fun t => (t.tx.ack, t.lines.txLine)) = some (false, true) := by decide
/-- T2. -/
theorem test_txAccept : after (exec .txAccept { inState St.waitAck with rep := ⟨St.waitAck, 0, 0, 0, 0, true, 0x41#8⟩ })
    (·.tx) = some ⟨true, 0x282#10, 0, 0, false⟩ := by decide
/-- T3, T4 and T5. -/
theorem test_txHoldBit : after (step (sending 1 3)) (fun t => (t.tx.cnt, t.tx.bit)) = some (2, 3) := by decide
theorem test_txNextBit : after (step (sending 3 2)) (fun t => (t.tx.cnt, t.tx.bit)) = some (0, 3) := by decide
theorem test_txFrameEnd : after (step (sending 3 9)) (fun t => (t.tx.busy, t.tx.bit, t.tx.ack)) =
    some (false, 0, true) := by decide
/-- H1: `CAP` = 256. -/
theorem test_recordLine : recordLine { par with cap := 256 } 0x2A (record 0xDEADBEEF#32 0x0042#16) =
    [0x32#8, 0x61#8, 0x20#8, 0x64#8, 0x65#8, 0x61#8, 0x64#8, 0x62#8, 0x65#8, 0x65#8, 0x66#8, 0x20#8, 0x30#8, 0x30#8,
      0x34#8, 0x32#8, 0x0D#8, 0x0A#8] := by decide
/-- X6 and X9. -/
theorem test_hex : hex 0x1F 5 = [0x31#8, 0x66#8] ∧ hex 0x12B 9 = [0x31#8, 0x32#8, 0x62#8] := by decide
/-- R68's text, with a repeat, a comment and an empty line. -/
theorem test_parse : parseScript ['W',' ','1','2','3','4','3',' ','*',' ','2','\n','\n','L','L','O',' ','a','B','c','D','#'] =
    some [.word 0x12343#20 2, .llo 0xABCD#16] ∧ parseScript ['R','E','A','D',' ','0'] = none := by decide
/-- R155, R84: words laid as the host lays them. -/
theorem test_withFetchWord : after (step (State.reset.withFetchWord 24 0xABCD1)) (·.addr) = some 0x0000ABCD#32 ∧
    after (step (State.reset.withFetchWord 8 0x8)) (·.rep.st) = some St.done := by decide

/-! ### Witnesses: a state and operands that meet the hypotheses of each statement, clause by clause -/

/-- The next state of a step that has one. -/
def nextOf (s : State) : State :=
  match step s with
  | .next t => t
  | _ => s

/-- A tick with both enables, with the primary alone, with neither. -/
def latching (iw : InputWord) : State := start [iw]

theorem witness_ExactlyOneRow : (0x1FFFFF < 2 ^ Format.width .latch ∧ decode .latch 0x1FFFFF = .ok (.latchHi 0xFFFF#16)) ∧
    (8 < 2 ^ Format.width .fsmState ∧ decode .fsmState 8 = .ok .stDone) ∧ 9 < 2 ^ Format.width .fsmState := by decide

theorem witness_LaidTableWord : 0x1FFFFF < 2 ^ 21 ∧ decodeTableWord 24 0x100000 = some .rdFall ∧
    decodeTableWord 8 8 = some .stDone ∧ decodeTableWord 8 11 = some .txFrameEnd ∧
    decodeTableWord 8 13 = some .captureAppend := by decide

theorem witness_StepRunsTheDecodedRows : ∃ s i s1 s2 r x, decodeFsm s.rep.st = .ok i ∧
    exec (decodeStrobe (decodeWord s)) s = next s1 ∧ exec (decodeLatch (decodeWord s)) s1 = next s2 ∧
    exec i s = next r ∧ exec (decodeTx s.tx.busy s.rep.txReady (cntEnd s) (bitEnd s)) s = next x :=
  ⟨latching 0x12347#20, .stSendInitialChar, _, _, _, _, rfl, rfl, rfl, rfl, rfl⟩

theorem witness_StepRunsTheDecodedRows_reportFault : ∃ s i f, decodeFsm s.rep.st = .ok i ∧ exec i s = fault f :=
  ⟨draining St.sendChar 0 0 2 3, .stSendChar, .unwrittenLogRead, rfl, rfl⟩

/-- A transmitter that is busy while the machine says ready. -/
def clashing : State := { sending 0 0 with rep := ⟨St.waitAck, 0, 0, 0, 0, true, 0x41#8⟩ }

theorem witness_StepRunsTheDecodedRows_transmitterFault : ∃ s i r f, decodeFsm s.rep.st = .ok i ∧ exec i s = next r ∧
    exec (decodeTx s.tx.busy s.rep.txReady (cntEnd s) (bitEnd s)) s = fault f :=
  ⟨clashing, .stWaitAck, _, .readyWhileBusy, rfl, rfl, rfl⟩

theorem witness_RowsWriteOnlyTheirComponent : ∃ s a b c d e f, exec (.latchHi 0x1234#16) s = next a ∧
    exec .rdFall s = next b ∧ exec .stWaitFull s = next c ∧ exec .txIdle s = next d ∧ exec .captureSkip s = next e ∧
    exec .captureAppend s = next f ∧ exec .rdHold s = next s ∧ exec .captureDrop s = next s :=
  ⟨setBus (falling St.waitFull 1 0 0#32) (romDrive (falling St.waitFull 1 0 0#32)), _, _, _, _, _, _, rfl, rfl, rfl, rfl,
    rfl, rfl, rfl, rfl⟩

/-- A falling edge that stores a record, in the last place of the log, and one that stores none. -/
theorem witness_RowsWriteOnlyTheirComponent_rdFall :
    (∃ t, exec .rdFall (falling St.waitFull 0 3 0#32) = next t ∧ t.log.cells ≠ []) ∧
    (∃ t, exec .rdFall (falling St.waitFull 1 0 0#32) = next t) ∧
    ¬ (writePhase (falling St.waitFull 1 0 0#32).rep.st = true ∧ (falling St.waitFull 1 0 0#32).log.skip = 0) ∧
    ¬ (writePhase (falling St.waitFull 0 3 0#32).rep.st = true ∧ 0 < (falling St.waitFull 0 3 0#32).log.skip) :=
  ⟨⟨_, rfl, by decide⟩, ⟨_, rfl⟩, by decide, by decide⟩

theorem witness_ConfigurationNeverChanges : ∃ s t u, run 1 s = next t ∧ runAbstract [true] s = next u :=
  ⟨latching 0x12343#20, _, _, rfl, rfl⟩

theorem witness_BusSideIgnores : ∃ s s' t t', s'.cfg = s.cfg ∧ s'.inputs = s.inputs ∧ s'.tick = s.tick ∧
    s'.rdPrev = s.rdPrev ∧ s'.addr = s.addr ∧ s' ≠ s ∧ step s = next t ∧ step s' = next t' :=
  ⟨inState St.done, inState St.waitFull, _, _, rfl, rfl, rfl, rfl, rfl, by decide, rfl, rfl⟩

theorem witness_ReportIgnoresTheBus : ∃ s s' t t', s'.cfg = s.cfg ∧ s'.tick = s.tick ∧ s'.log = s.log ∧ s'.rep = s.rep ∧
    s'.tx = s.tx ∧ s' ≠ s ∧ step s = next t ∧ step s' = next t' :=
  ⟨latching 0x12343#20, latching 0x00004#20, _, _, rfl, rfl, rfl, rfl, rfl, by decide, rfl, rfl⟩

theorem witness_PowerOnRefuses : (¬ (1 ≤ { par with cap := 0 }.cap)) ∧ ¬ ((0xF#32 >>> 1).toNat < par.romWords) ∧
    ({ par with romSignature := 0x2222#16 }.wf = true ∧ par.rom[0]? ≠ some 0x2222#16) ∧
    (par.wf = true ∧ par.rom[0]? = some par.romSignature) := by decide

theorem coreInv_start : CoreInv (start []) := ⟨by decide, by decide, by decide⟩

theorem witness_Inv : Inv (start []) ∧ CoreInv (start []) := ⟨⟨coreInv_start, by decide⟩, coreInv_start⟩

/-- The invariant in the drain of a full log, at its last character's acknowledge wait. -/
def fullDrain : State :=
  let s := State.init shortCfg [0x00000#20]
  { s with
    rep := { s.rep with st := St.waitAck, cidx := 16, rp := 0, txReady := true, txData := 0x0A#8 }
    log := { skip := 0, wp := 1, cells := [(0, record 0#32 0x1111#16)] } }

theorem inv_fullDrain : Inv fullDrain := ⟨⟨by decide, by decide, by decide⟩, by decide⟩

theorem witness_Inv_full : Inv fullDrain ∧ CoreInv fullDrain ∧ fullDrain.log.wp = fullDrain.par.cap :=
  ⟨inv_fullDrain, inv_fullDrain.1, by decide⟩

theorem witness_TickKeepsTheLogCanonical : ∃ s t u, Memory.wf s.log.cells ∧ s.log.cells ≠ [] ∧ step s = next t ∧
    stepAbstract true s = next u := ⟨fullDrain, _, _, by decide, by decide, rfl, rfl⟩

theorem witness_EdgeStrobes : (∃ s t, step s = next t ∧ fell s = true) ∧ ∃ s t, step s = next t ∧ rose s = true :=
  ⟨⟨falling St.done 0 0 0#32, _, rfl, by decide⟩, ⟨latching 0x00004#20, _, rfl, by decide⟩⟩

theorem witness_LatchHi : ∃ s t, step s = next t ∧ aleP s = true ∧ aleS s = true ∧ fell s = false :=
  ⟨latching 0x12343#20, _, rfl, by decide, by decide, by decide⟩

theorem witness_LatchLo : ∃ s t, step s = next t ∧ aleP s = true ∧ aleS s = false ∧ fell s = false :=
  ⟨latching 0xABCD1#20, _, rfl, by decide, by decide, by decide⟩

theorem witness_LatchNone : ∃ s t, step s = next t ∧ aleP s = false ∧ fell s = false :=
  ⟨latching 0x55552#20, _, rfl, by decide, by decide⟩

theorem witness_OneNextAddressPerTick : ∃ s t, step s = next t ∧ fell s = true ∧ aleP s = true :=
  ⟨{ falling St.done 0 0 0x0000FFFE#32 with inputs := [0x12341#20] }, _, rfl, by decide, by decide⟩

/-- A strobe held from the first phase on, and its fall after the second. -/
theorem witness_TwoPhases : ∃ (s t : State) (w1 w2 : InputWord) (mid : List InputWord),
    w1 = wordFields 0x1234#16 false true true true ∧ w2 = wordFields 0x5678#16 false true false true ∧
    (∀ m ∈ mid, m.getLsbD 0 = false) ∧
    (∀ (k : Nat) (a b : InputWord), (w1 :: (mid ++ [w2]))[k]? = some a → (w1 :: (mid ++ [w2]))[k + 1]? = some b →
      a.getLsbD 2 = true → b.getLsbD 2 = true) ∧
    s.inputs = w1 :: (mid ++ [w2]) ++ [] ∧ run (mid.length + 2) s = next t := by
  refine ⟨start [0x12347#20, 0x00004#20, 0x56785#20], nextOf (nextOf (nextOf (start [0x12347#20, 0x00004#20, 0x56785#20]))),
    0x12347#20, 0x56785#20, [0x00004#20], by decide, by decide, by simp, ?_, rfl, rfl⟩
  rintro (_ | _ | k) a b ha hb - <;> simp at hb <;> subst hb <;> rfl

/-- The same with the low half first. -/
theorem witness_TwoPhases_lowFirst : ∃ (s t : State) (w1 w2 : InputWord),
    w1 = wordFields 0x5678#16 false false false true ∧ w2 = wordFields 0x1234#16 false false true true ∧
    (∀ (k : Nat) (a b : InputWord), (w1 :: ([] ++ [w2]))[k]? = some a → (w1 :: ([] ++ [w2]))[k + 1]? = some b →
      a.getLsbD 2 = true → b.getLsbD 2 = true) ∧
    s.inputs = w1 :: ([] ++ [w2]) ++ [] ∧ run 2 s = next t := by
  refine ⟨start [0x56781#20, 0x12343#20], _, 0x56781#20, 0x12343#20, by decide, by decide, ?_, rfl, rfl⟩
  rintro (_ | k) a b ha hb h
  · simp at ha; subst ha; exact absurd h (by decide)
  · simp at hb

theorem witness_ScriptStatements : (∃ s t, s.inputs = expand (.latch 0x1000FFFC#32) ++ [] ∧ run 2 s = next t) ∧
    ∃ s t, 1 ≤ 1 ∧ s.inputs = expand (.read 1) ++ [] ∧ run (1 + 1) s = next t :=
  ⟨⟨start [0x10003#20, 0xFFFC1#20], _, by decide, rfl⟩, ⟨start [0x00004#20, 0x00000#20], _, by decide, rfl, rfl⟩⟩

theorem witness_OddAddresses : (falling St.waitFull 0 3 0x1#32).log.wp < (falling St.waitFull 0 3 0x1#32).par.cap := by
  decide

theorem witness_LoadedImage : 1 < 2 ∧ [0x34#8, 0x12#8, 0xCD#8, 0xAB#8][2 * 1]? = some 0xCD#8 ∧
    [0x34#8, 0x12#8, 0xCD#8, 0xAB#8][2 * 1 + 1]? = some 0xAB#8 := by decide

theorem witness_StrobeDrives : ∃ s t, step s = next t ∧ rd s = true := ⟨latching 0x00004#20, _, rfl, by decide⟩

theorem witness_NoStrobe : ∃ s t, step s = next t ∧ rd s = false := ⟨falling St.done 0 0 0#32, _, rfl, by decide⟩

theorem witness_CaptureSkip : ∃ s t, step s = next t ∧ fell s = true ∧ writePhase s.rep.st = true ∧ 0 < s.log.skip ∧
    s.log.wp = s.par.cap := ⟨falling St.waitFull 1 4 0#32, _, rfl, by decide, by decide, by decide, by decide⟩

theorem witness_CaptureAppend : ∃ s t, step s = next t ∧ fell s = true ∧ writePhase s.rep.st = true ∧ s.log.skip = 0 ∧
    s.log.wp < s.par.cap ∧ s.log.wp + 1 = s.par.cap :=
  ⟨falling St.waitFull 0 3 0x6#32, _, rfl, by decide, by decide, by decide, by decide, by decide⟩

theorem witness_DroppedCaptures : ∃ s t, step s = next t ∧ fell s = true ∧ writePhase s.rep.st = true ∧ s.log.skip = 0 ∧
    s.log.wp = s.par.cap ∧ aleP s = false :=
  ⟨falling St.initialWait 0 4 0x8#32, _, rfl, by decide, by decide, by decide, by decide, by decide⟩

theorem witness_ReadPhase : ∃ s t, step s = next t ∧ readPhase s.rep.st = true ∧ fell s = true ∧ aleP s = false :=
  ⟨falling St.sendChar 0 0 0x4#32, _, rfl, by decide, by decide, by decide⟩

theorem witness_SkipCounter : (∃ s t, step s = next t ∧ t.log.skip ≠ s.log.skip) ∧ ∃ s t, step s = next t ∧ s.log.skip = 0 :=
  ⟨⟨falling St.waitFull 1 0 0#32, _, rfl, by decide⟩, ⟨falling St.waitFull 0 0 0#32, _, rfl, by decide⟩⟩

theorem witness_LogOnlyGrows : ∃ s t, step s = next t ∧ s.log.wp ≤ s.par.cap ∧ 0 < s.log.wp :=
  ⟨draining St.sendChar 0 0 0 2, _, rfl, by decide, by decide⟩

theorem witness_LogHolds : ∃ t, run 2 (State.init shortCfg [0x00004#20, 0x00000#20]) = next t ∧
    captures 2 (State.init shortCfg [0x00004#20, 0x00000#20]) = [record 0#32 0x1111#16] := ⟨_, rfl, by decide⟩

theorem witness_SendInitialChar : (draining St.sendInitialChar 1 0 0 0).rep.cidx < par.bannerLen := by decide

/-- An acknowledge wait with the acknowledge as given. -/
def acked (st : Nibble) (cidx : Nat) (ack : Bool) : State :=
  { draining st cidx 0 0 2 with tx := ⟨false, 0x3FF#10, 0, 0, ack⟩ }

theorem witness_AcknowledgeWaits : (acked St.initWaitAck 0 false).tx.ack = false ∧
    ((acked St.initWaitAck 1 true).tx.ack = true ∧ (acked St.initWaitAck 1 true).rep.cidx = par.bannerLen - 1) ∧
    ((acked St.initWaitAck 0 true).tx.ack = true ∧ (acked St.initWaitAck 0 true).rep.cidx ≠ par.bannerLen - 1) ∧
    ((acked St.waitAck 16 true).tx.ack = true ∧ (acked St.waitAck 16 true).rep.cidx = recLen par - 1) ∧
    ((acked St.waitAck 15 true).tx.ack = true ∧ (acked St.waitAck 15 true).rep.cidx ≠ recLen par - 1) := by decide

theorem witness_CharacterDelays : (draining St.wait 5 1 0 2).rep.dly = par.dChar - 1 ∧
    (draining St.wait 5 0 0 2).rep.dly ≠ par.dChar - 1 := by decide

theorem witness_WaitFull : (draining St.waitFull 0 0 0 4).log.wp = par.cap ∧ (State.init shortCfg []).rep.tmo = 0 ∧
    ((draining St.waitFull 0 0 0 3).log.wp ≠ par.cap ∧ (draining St.waitFull 0 0 0 3).rep.tmo ≠ 0) := by decide

theorem witness_SendChar : (inState St.sendChar).log.wp = 0 ∧
    ((draining St.sendChar 16 0 1 2).log.wp ≠ 0 ∧ logRead par (draining St.sendChar 16 0 1 2).log.cells 1 =
      some (record 0x2#32 0x2222#16) ∧ (draining St.sendChar 16 0 1 2).rep.cidx < recLen par) ∧
    ((draining St.sendChar 0 0 2 3).log.wp ≠ 0 ∧ logRead par (draining St.sendChar 0 0 2 3).log.cells 2 = none) := by
  decide

theorem witness_ActualDelay : (draining St.actualDelay 0 0 0 2).rep.dly ≠ par.dRec - 1 ∧
    ((draining St.actualDelay 0 1 0 2).rep.dly = par.dRec - 1 ∧ 0 + 1 < (draining St.actualDelay 0 1 0 2).log.wp) ∧
    ((draining St.actualDelay 0 1 1 2).rep.dly = par.dRec - 1 ∧ (draining St.actualDelay 0 1 1 2).log.wp ≤ 1 + 1) := by
  decide

theorem witness_DoneIsTerminal : ∃ s t, s.rep.st = St.done ∧ step s = next t ∧ run 1 s = next t ∧ fell s = true ∧
    aleP s = false := ⟨falling St.done 0 0 0#32, _, rfl, rfl, rfl, by decide, by decide⟩

theorem witness_ReadyIsAPulse : ∃ s t, s.rep.st.toNat ≤ 8 ∧ step s = next t ∧ t.rep.txReady = false :=
  ⟨inState St.done, _, by decide, rfl, rfl⟩

theorem witness_UnusedStateCodes : (9 ≤ (inState 0b1001#4).rep.st.toNat ∧ (inState 0b1001#4).tx.busy = false) ∧
    (9 ≤ (falling 0b1111#4 0 0 0#32).rep.st.toNat ∧ fell (falling 0b1111#4 0 0 0#32) = true ∧
      aleP (falling 0b1111#4 0 0 0#32) = false) ∧ (inState St.done).rep.st.toNat ≤ 8 := by decide

/-- An unused code with a character offered to a busy transmitter. -/
theorem witness_UnusedStateCodes_fault : ∃ s : State, 9 ≤ s.rep.st.toNat ∧ s.tx.busy = true ∧ s.rep.txReady = true :=
  ⟨{ sending 0 0 with rep := ⟨0b1001#4, 0, 0, 0, 0, true, 0x41#8⟩ }, by decide, rfl, rfl⟩

theorem witness_Hex : 2 < digitCount 9 ∧ 0x1FF < 2 ^ 9 ∧ 3 < 2 ^ idxBits par := by decide

theorem witness_IdleTransmitter : (inState St.waitFull).tx.busy = false := by decide

theorem witness_BusyTransmitter : (sending 3 8).tx.busy = true ∧ (sending 3 8).rep.txReady = false ∧
    (sending 3 8).tx.bit.val < 9 := by decide

theorem witness_ReadyWhileBusy : clashing.tx.busy = true ∧ clashing.rep.txReady = true := by decide

theorem witness_AcceptedCharacter : Inv fullDrain ∧ fullDrain.rep.txReady = true ∧ 0 < 10 * fullDrain.par.txDiv :=
  ⟨inv_fullDrain, by decide, by decide⟩

theorem witness_ReferenceTransmitter : ∃ s t, step s = next t ∧ t.tx.ack = true := ⟨sending 3 9, _, rfl, rfl⟩

theorem witness_OneAcknowledge : ∃ t, runAbstract [false, true] (State.init shortCfg [0x00000#20, 0x00000#20]) = next t ∧
    t.tx.ack = true := ⟨_, rfl, rfl⟩

/-- Fair choices: an acknowledge at the end of every third tick, in a run that holds a character after its first. -/
theorem witness_FairChoices : FairChoices (fun n => n % 3 == 2) (State.init shortCfg [0x00000#20]) ∧
    ∃ t, runAbstract (choices (fun n => n % 3 == 2) 1) (State.init shortCfg [0x00000#20]) = next t ∧
      holdsChar t = true := by
  refine ⟨fun n _ _ _ => ⟨3 * n + 2, by omega, ?_⟩, _, rfl, rfl⟩
  simp

/-- A transmitter that never acknowledges the character it holds is not fair. -/
theorem test_unfair : ¬ FairChoices (fun _ => false) (State.init shortCfg [0x00000#20]) := fun h => by
  obtain ⟨_, _, hm⟩ := h 1 _ rfl rfl
  cases hm

/-- An empty report with an acknowledge as soon as may be. -/
theorem witness_Stream :
    after (runAbstract [false, true, false, false, false] (State.init shortCfg (expand (.idle 5)))) (·.rep.st) =
      some St.done := by decide

/-- The same with the reference transmitter. -/
theorem witness_ReferenceStream : after (run 15 (State.init shortCfg (expand (.idle 15)))) (·.rep.st) = some St.done := by
  decide

/-- The end of a report, with one record. -/
def reported : State := { fullDrain with rep := { fullDrain.rep with st := St.done, cidx := 0, txReady := false } }

theorem witness_Silence : Inv reported ∧ reported.rep.st = St.done :=
  ⟨⟨⟨by decide, by decide, by decide⟩, by decide⟩, by decide⟩

end Sys2Proof.Tests
end

section
/-!
PROOFS. Power-on (R170): the two checks of a configuration as propositions, what `powerOn` answers in each case, and O12.
-/

namespace Sys2Proof

/-- R5: the executable check is the conjunction of the seven ranges. -/
theorem Params.wf_iff (p : Params) : p.wf = true ↔
    1 ≤ p.cap ∧ 1 ≤ p.dChar ∧ 1 ≤ p.dRec ∧ 1 ≤ p.bannerLen ∧ 1 ≤ p.romWords ∧
      (p.romMask >>> 1).toNat < p.romWords ∧ 1 ≤ p.txDiv := by
  simp only [Params.wf, Params.capOk, Params.dCharOk, Params.dRecOk, Params.bannerOk, Params.romOk, Params.maskOk,
    Params.txDivOk, Bool.and_eq_true, decide_eq_true_eq, and_assoc]

theorem Params.signatureOk_iff (p : Params) : p.signatureOk = true ↔ p.rom[0]? = some p.romSignature := by
  simp only [Params.signatureOk, decide_eq_true_eq]

theorem Params.accepted_iff (p : Params) : p.accepted = true ↔ p.wf = true ∧ p.signatureOk = true := by
  simp only [Params.accepted, Bool.and_eq_true]

end Sys2Proof

namespace Sys2Proof.Machine

open Host.Outcome

/-! ### The three answers of power-on, in the order of R170 -/

theorem powerOn_of_not_wf {p : Params} (ins : List InputWord) (h : ¬ p.wf = true) :
    powerOn p ins = refused .configurationRefused :=
  dif_neg h

theorem powerOn_of_not_signatureOk {p : Params} (ins : List InputWord) (h : p.wf = true)
    (hs : ¬ p.signatureOk = true) : powerOn p ins = refused .romSignatureMismatch :=
  (dif_pos h).trans (dif_neg hs)

theorem powerOn_config (c : Config) (ins : List InputWord) : powerOn c.params ins = next (State.init c ins) :=
  have ⟨h, hs⟩ := c.params.accepted_iff.1 c.ok
  (dif_pos h).trans (dif_pos hs)

/-- Settles O12: each clause is one of the three answers of power-on, its premise read as the check it fails or
passes. -/
theorem powerOnRefusesBadConfigurations : Obligations.PowerOnRefusesBadConfigurations := by
  intro p ins
  rw [← p.wf_iff, ← p.signatureOk_iff, Ne, ← p.signatureOk_iff]
  refine ⟨powerOn_of_not_wf ins, fun h hs => ?_, fun h hs => ?_⟩
  · exact ⟨_, powerOn_of_not_signatureOk ins h hs, rfl, rfl⟩
  · exact ⟨_, powerOn_config ⟨p, p.accepted_iff.2 ⟨h, hs⟩⟩ ins, rfl, rfl⟩

end Sys2Proof.Machine
end

section
/-!
PROOFS. What holds along a run: a property that every tick keeps holds at its end, the configuration is one (R26), and
O8.
-/

namespace Sys2Proof.Machine

open Host.Outcome

/-! ### Properties that every tick keeps -/

/-- What every tick with the reference transmitter keeps, a run keeps. -/
theorem run_preserves {P : State → Prop} (hstep : ∀ s t, P s → step s = next t → P t) {n : Nat} {s t : State}
    (hs : P s) (h : run n s = next t) : P t := by
  induction n generalizing s with
  | zero => cases h; exact hs
  | succ n ih =>
    obtain ⟨u, hu, hrest⟩ := andThen_eq_next.1 h
    exact ih (hstep s u hs hu) hrest

/-- What every tick keeps, whatever the abstract transmitter chooses in it, a run keeps. -/
theorem runAbstract_preserves {P : State → Prop} (hstep : ∀ w s t, P s → stepAbstract w s = next t → P t)
    {ws : List Bool} {s t : State} (hs : P s) (h : runAbstract ws s = next t) : P t := by
  induction ws generalizing s with
  | nil => cases h; exact hs
  | cons w ws ih =>
    obtain ⟨u, hu, hrest⟩ := andThen_eq_next.1 h
    exact ih (hstep w s u hs hu) hrest

/-! ### The configuration -/

theorem tickWith_cfg {s t : State} {x : Host.Outcome State Fault Refusal} (h : tickWith s x = next t) :
    t.cfg = s.cfg := by
  obtain ⟨r, u, -, -, rfl⟩ := tickWith_eq_next.1 h
  exact commit_cfg s (busNext s) r u

theorem step_cfg {s t : State} (h : step s = next t) : t.cfg = s.cfg := tickWith_cfg h

theorem stepAbstract_cfg {w : Bool} {s t : State} (h : stepAbstract w s = next t) : t.cfg = s.cfg := tickWith_cfg h

/-- Settles O8: having the configuration of the run's first state is a property that every tick keeps, with either
transmitter. -/
theorem configurationNeverChanges : Obligations.ConfigurationNeverChanges :=
  ⟨fun _ s _ => run_preserves (P := (·.cfg = s.cfg)) (fun _ _ hu h => (step_cfg h).trans hu) rfl,
   fun _ s _ => runAbstract_preserves (P := (·.cfg = s.cfg)) (fun _ _ _ hu h => (stepAbstract_cfg h).trans hu) rfl⟩

end Sys2Proof.Machine
end

section
/-!
PROOFS. The counters in their widths (R16 to R25, R27): what a width of `clog2` bits holds, the bounds that the
invariant gives `rp`, `cidx` and `dly` over all states of the report machine, and O17.
-/

namespace Sys2Proof.Machine

/-! ### Widths -/

/-- `clog2 n` bits hold every number below `n` (R4). -/
theorem lt_two_pow_clog2 {x n : Nat} (h : x < n) : x < 2 ^ clog2 n := by
  unfold clog2
  split
  · omega
  · have hlast : n - 1 < 2 ^ (Nat.log2 (n - 1) + 1) := Nat.lt_log2_self
    omega

/-- So does a width of at least one bit. -/
theorem lt_two_pow_max_clog2 {x n : Nat} (h : x < n) : x < 2 ^ max 1 (clog2 n) :=
  (lt_two_pow_clog2 h).trans_le (Nat.pow_le_pow_right (by decide) (le_max_right _ _))

/-! ### The report machine's registers over all its states -/

/-- The nine named states: those with an index into the banner, with the index at 0, with an index into the line
(R59). -/
theorem st_cases {st : Nibble} (h : st.toNat ≤ 8) :
    (st = St.sendInitialChar ∨ st = St.initWaitAck ∨ st = St.initialWait) ∨
    (st = St.waitFull ∨ st = St.actualDelay ∨ st = St.done) ∨
    (st = St.sendChar ∨ st = St.waitAck ∨ st = St.wait) := by
  decide +revert

theorem writePhase_or_readPhase (st : Nibble) : writePhase st = true ∨ readPhase st = true := by
  unfold readPhase
  cases writePhase st
  · exact .inr rfl
  · exact .inl rfl

/-- The record pointer names an index of the log space (R18, R108). -/
theorem rp_lt_cap {s : State} (hlog : LogInv s) (hrep : ReportInv s) : s.rep.rp < s.par.cap := by
  obtain ⟨hwp, -⟩ := hlog
  obtain ⟨-, -, hwrite, -, -, -, hread, -⟩ := hrep
  obtain ⟨hcap, -⟩ := Config.bounds s.cfg
  obtain h | h := writePhase_or_readPhase s.rep.st
  · rw [hwrite h]
    exact hcap
  · obtain hrp | ⟨-, hrp, -⟩ := hread h
    · exact hrp.trans_le hwp
    · rw [hrp]
      exact hcap

/-- The character index is inside the banner or the line (R21). -/
theorem cidx_lt {s : State} (hrep : ReportInv s) : s.rep.cidx < max s.par.bannerLen (recLen s.par) := by
  obtain ⟨hst, -, -, hbanner, hzero, hline, -⟩ := hrep
  obtain h | h | h := st_cases hst
  · exact lt_max_of_lt_left (hbanner h).1
  · obtain ⟨-, -, -, hlen, -⟩ := Config.bounds s.cfg
    rw [hzero h]
    exact lt_max_of_lt_left hlen
  · exact lt_max_of_lt_right (hline h)

/-- The delay counter is below the longer of the two delays (R22). -/
theorem dly_lt {s : State} (hrep : ReportInv s) : s.rep.dly < max s.par.dChar s.par.dRec := by
  obtain ⟨-, -, -, -, -, -, -, -, hchar, hrec, hzero⟩ := hrep
  by_cases hc : s.rep.st = St.initialWait ∨ s.rep.st = St.wait
  · exact lt_max_of_lt_left (hchar hc)
  · by_cases hr : s.rep.st = St.actualDelay
    · exact lt_max_of_lt_right (hrec hr)
    · obtain ⟨hc1, hc2⟩ := not_or.1 hc
      obtain ⟨-, hdChar, -⟩ := Config.bounds s.cfg
      rw [hzero hc1 hc2 hr]
      exact lt_max_of_lt_left hdChar

/-- Settles O17: each counter is below, or at most, the number whose `clog2` is its width; the two ranges are those of
`cidx_lt` and `dly_lt`. -/
theorem countersFitTheirWidths : Obligations.CountersFitTheirWidths := by
  rintro s ⟨⟨hlog, -, hrep⟩, ⟨hcnt, -⟩⟩
  have hrp := rp_lt_cap hlog hrep
  have hcidx := cidx_lt hrep
  have hdly := dly_lt hrep
  obtain ⟨hwp, hskip, -⟩ := hlog
  obtain ⟨-, htmo, -⟩ := hrep
  exact ⟨lt_two_pow_max_clog2 (Nat.lt_succ_of_le hskip), lt_two_pow_clog2 (Nat.lt_succ_of_le hwp),
    lt_two_pow_max_clog2 hrp, lt_two_pow_clog2 (Nat.lt_succ_of_le htmo), lt_two_pow_max_clog2 hcnt, hcidx, hdly⟩

end Sys2Proof.Machine
end

section
/-!
PROOFS. The state at power-on (R27): its log reads no record, it meets each part of the invariant, and O13 and O14.
-/

namespace Sys2Proof.Machine

/-- An empty log has no value at any index (R27, R46). -/
@[simp] theorem logRead_nil (p : Params) (i : Nat) : logRead p [] i = none := ite_self none

/-- Settles O13: power-on answers `State.init`, whose registers are written there as in R27's table; that the log has no
record is `logRead_nil`. -/
theorem powerOnValuesOfTheRegisters : Obligations.PowerOnValuesOfTheRegisters := fun c ins =>
  ⟨powerOn_config c ins, rfl, rfl, rfl, rfl, rfl, logRead_nil c.params, rfl, rfl, rfl, rfl, rfl, rfl, rfl, rfl, rfl, rfl,
    rfl⟩

/-! ### The parts of the invariant -/

section
variable (c : Config) (ins : List InputWord)

theorem logInv_init : LogInv (State.init c ins) :=
  ⟨Nat.zero_le _, le_refl _, fun h => absurd h (Nat.lt_irrefl 0), rfl⟩

/-- No acknowledge wait, and no line of the handshake is up (R131). -/
theorem handshakeInv_init : HandshakeInv (State.init c ins) :=
  ⟨fun h => Bool.noConfusion h, fun _ => ⟨rfl, rfl, rfl⟩⟩

/-- The machine stands in `send_initial_char`, so the clauses of other states ask nothing. -/
theorem reportInv_init : ReportInv (State.init c ins) := by
  obtain ⟨-, -, -, hlen, -⟩ := Config.bounds c
  have hst : (State.init c ins).rep.st = St.sendInitialChar := rfl
  simp only [ReportInv, hst]
  refine ⟨by decide, le_refl _, fun _ => rfl, fun _ => ⟨hlen, rfl⟩, fun _ => rfl, fun h => absurd h (by decide),
    fun h => absurd h (by decide), fun h => absurd h (by decide), fun h => absurd h (by decide),
    fun h => absurd h (by decide), fun _ _ _ => rfl⟩

/-- The transmitter is idle with its counters at rest. -/
theorem txInv_init : TxInv (State.init c ins) := by
  obtain ⟨-, -, -, -, -, -, hdiv⟩ := Config.bounds c
  exact ⟨hdiv, fun _ => ⟨rfl, rfl⟩, fun h => Bool.noConfusion h⟩

theorem inv_init : Inv (State.init c ins) :=
  ⟨⟨logInv_init c ins, handshakeInv_init c ins, reportInv_init c ins⟩, txInv_init c ins⟩

end

/-- Settles O14: the four parts of the invariant hold at every power-on, and reset is the power-on of this hardware. -/
theorem powerOnMeetsTheInvariant : Obligations.PowerOnMeetsTheInvariant :=
  ⟨inv_init, inv_init Config.hardware [], reset_log_wf⟩

end Sys2Proof.Machine
end

section
/-!
PROOFS. The ROM (R41 to R44, R54): the index of an address by its bits 31:1, the captured record of a read, the
little-endian words of the loaded image, and O26 to O28.
-/

namespace Sys2Proof.Machine

open Host.Outcome

/-! ### The index of an address -/

/-- Settles O26: the mask keeps every index inside the image (R5), and the read there answers. -/
theorem everyAddressReadsInsideTheImage : Obligations.EveryAddressReadsInsideTheImage := fun c a =>
  ⟨romIndex_lt c a, romRead_romIndex c a⟩

/-- The index as numbers: bit 0 of the address is shifted out before the mask can keep it (R44, R54). -/
theorem romIndex_eq (p : Params) (a : Addr) : romIndex p a = a.toNat / 2 &&& p.romMask.toNat / 2 := by
  simp only [romIndex, BitVec.toNat_ushiftRight, BitVec.toNat_and, Nat.shiftRight_eq_div_pow, Nat.pow_one,
    Nat.and_div_two]

/-- Addresses with one index read one word. -/
theorem romWord_congr {c : Config} {a b : Addr} (h : romIndex c.params a = romIndex c.params b) :
    romWord c a = romWord c b := by
  simp only [romWord, h]

/-- Addresses that differ in bit 0 at most read one word (R54). -/
theorem romWord_eq_of_half_eq (c : Config) {a b : Addr} (h : a.toNat / 2 = b.toNat / 2) :
    romWord c a = romWord c b := by
  apply romWord_congr
  rw [romIndex_eq, romIndex_eq, h]

/-! ### The captured read at an odd address -/

/-- The increment keeps the parity of the address, over the wrap at 2^32 too (R54, R83). -/
theorem advance_parity (a : Addr) : (advance a).toNat % 2 = a.toNat % 2 := by
  simp only [advance, BitVec.toNat_add, BitVec.toNat_ofNat]
  omega

/-- A packed record gives its address back (R48). -/
@[simp] theorem recAddr_record (a : Addr) (d : Half) : recAddr (record a d) = a :=
  BitVec.extractLsb'_append_eq_left

/-- A `LogRead` of the index just written, inside the log space, answers the record (R46, R47). -/
theorem logRead_logWrite_same {p : Params} {i : Nat} (h : i < p.cap) (m : Memory) (v : Record) :
    logRead p (logWrite p m i v) i = some v := by
  simp [logRead, logWrite, h, Memory.read_write]

/-- An append with room puts the captured pair at `wp` (R103). -/
theorem appended_read_wp {s : State} (h : s.log.wp < s.par.cap) :
    logRead s.par (appended s).cells s.log.wp = some (captured s) := by
  rw [appended, if_pos h]
  exact logRead_logWrite_same h _ _

/-- Settles O27: `2k` and `2k+1` have one half, also past the wrap at 2^32; RD_FALL answers the advanced address; and the
pair that an append puts at `wp` holds the address itself. -/
theorem oddAddressesReadTheSameWord : Obligations.OddAddressesReadTheSameWord := by
  refine ⟨fun c k => romWord_eq_of_half_eq c ?_, fun s => ⟨_, rfl, advance_parity s.addr⟩,
    fun s hroom => ⟨_, captured s, rfl, appended_read_wp hroom, recAddr_record s.addr _⟩⟩
  simp only [BitVec.toNat_ofNat]
  omega

/-! ### The loaded image -/

theorem littleEndianWord_low (lo hi : Byte) : (littleEndianWord lo hi).extractLsb' 0 8 = lo :=
  BitVec.extractLsb'_append_eq_right

theorem littleEndianWord_high (lo hi : Byte) : (littleEndianWord lo hi).extractLsb' 8 8 = hi :=
  BitVec.extractLsb'_append_eq_left

/-- Two bytes make a word, and a lone last one makes none. -/
theorem wordsOfBytes_length (bytes : List Byte) : (wordsOfBytes bytes).length = bytes.length / 2 := by
  induction bytes using wordsOfBytes.induct with
  | case1 lo hi bs ih =>
    simp only [wordsOfBytes, List.length_cons, ih]
    omega
  | case2 bs hbs =>
    match bs with
    | [] => rfl
    | [lo] => simp [wordsOfBytes]
    | lo :: hi :: bs => exact absurd rfl (hbs lo hi bs)

/-- Word `i` is made of the bytes `2i` and `2i+1` (R43). -/
theorem wordsOfBytes_getElem? {bytes : List Byte} {i : Nat} {lo hi : Byte} (hlo : bytes[2 * i]? = some lo)
    (hhi : bytes[2 * i + 1]? = some hi) : (wordsOfBytes bytes)[i]? = some (littleEndianWord lo hi) := by
  induction i generalizing bytes with
  | zero =>
    match bytes with
    | _ :: _ :: _ => cases hlo; cases hhi; rfl
  | succ i ih =>
    match bytes with
    | _ :: _ :: bs => exact ih (bytes := bs) hlo hhi

/-- Settles O28: the window cuts the words after the `n`-th and changes none before it. -/
theorem loadedImageIsLittleEndian : Obligations.LoadedImageIsLittleEndian := by
  refine fun n bytes => ⟨fun i lo hi hi_lt hlo hhi => ⟨littleEndianWord lo hi, ?_, littleEndianWord_low lo hi,
    littleEndianWord_high lo hi⟩, ?_⟩
  · exact (List.getElem?_take_of_lt hi_lt).trans (wordsOfBytes_getElem? hlo hhi)
  · rw [loadRom, List.length_take, wordsOfBytes_length]

end Sys2Proof.Machine
end

section
/-!
PROOFS. Inputs without effect (R45, R66, R82): the fields of an input word as the tick reads them, what the sides of a
tick read of the stimulus, and O9.
-/

namespace Sys2Proof.Machine

open Host.Outcome

/-! ### The fields of an input word (R55) -/

section
variable (s : State) (d : Half) (w r aS aP : Bool) (rest : List InputWord)

/-- Each enable is one bit below the fields before it. -/
theorem wordFields_eq_concat : wordFields d w r aS aP = (((d.concat w).concat r).concat aS).concat aP := rfl

@[simp] theorem aleP_wordFields : aleP { s with inputs := wordFields d w r aS aP :: rest } = aP :=
  BitVec.getLsbD_concat_zero

@[simp] theorem aleS_wordFields : aleS { s with inputs := wordFields d w r aS aP :: rest } = aS :=
  BitVec.getLsbD_concat_succ.trans BitVec.getLsbD_concat_zero

@[simp] theorem rd_wordFields : rd { s with inputs := wordFields d w r aS aP :: rest } = r := by
  simp only [rd, inputWord, wordFields_eq_concat, BitVec.getLsbD_concat_succ, BitVec.getLsbD_concat_zero]

@[simp] theorem adIn_wordFields : adIn { s with inputs := wordFields d w r aS aP :: rest } = d := by
  apply BitVec.eq_of_getLsbD_eq
  intro i hi
  rw [adIn, BitVec.getLsbD_extractLsb', Nat.add_comm 4 i]
  simp only [inputWord, wordFields_eq_concat, BitVec.getLsbD_concat_succ, hi, decide_true, Bool.true_and]

end

/-! ### What the sides of a tick read of the stimulus (R146) -/

section
variable (s : State) (ins : List InputWord)

theorem execStSendChar_inputs :
    execStSendChar { s with inputs := ins } = andThen (execStSendChar s) fun r => next { r with inputs := ins } := by
  unfold execStSendChar
  by_cases hwp : s.log.wp = 0
  · simp only [hwp, if_true]
    rfl
  · simp only [hwp, if_false]
    cases logRead s.par s.log.cells s.rep.rp <;> rfl

/-- The report side reads no input. -/
theorem reportSide_inputs :
    reportSide { s with inputs := ins } = andThen (reportSide s) fun r => next { r with inputs := ins } := by
  have hrow : fsmRow { s with inputs := ins } = fsmRow s := rfl
  unfold reportSide
  rw [hrow]
  split
  · rename_i i hi
    unfold fsmRow decodeFsm at hi
    split at hi <;> cases hi
    case h_5 => exact execStSendChar_inputs s ins
    all_goals rfl
  · rfl

/-- Nor does the transmitter. -/
theorem exec_txRow_inputs :
    exec (txRow { s with inputs := ins }) { s with inputs := ins } =
      andThen (exec (txRow s) s) fun t => next { t with inputs := ins } := by
  by_cases h : s.tx.busy = true ∧ s.rep.txReady = true
  · obtain ⟨hb, hr⟩ := h
    rw [txRow_fault { s with inputs := ins } hb hr, txRow_fault s hb hr, andThen_fault]
  · have hidle : s.tx.busy = false ∨ s.rep.txReady = false := by
      simpa only [not_and_or, Bool.not_eq_true] using h
    rw [txRow_next { s with inputs := ins } hidle, txRow_next s hidle]
    rfl

/-- So the stimulus enters a tick through the bus side and the commit alone. -/
theorem step_inputs :
    step { s with inputs := ins } = andThen (reportSide s) fun r => andThen (exec (txRow s) s) fun t =>
      next (commit { s with inputs := ins } (busNext { s with inputs := ins }) r t) := by
  simp only [step, tick, tickWith_eq, reportSide_inputs, exec_txRow_inputs, andThen_assoc, andThen_next]
  rfl

end

/-- The next address is one where the address, the read sample, `rd` and `ale_p` are, and with `ale_p` = 1 also `ale_s`
and the bus value: only a latch row that writes reads those two (R57, R66). -/
theorem addrNext_congr {s t : State} (haddr : s.addr = t.addr) (hprev : s.rdPrev = t.rdPrev) (hrd : rd s = rd t)
    (haleP : aleP s = aleP t) (hlatch : aleP t = true → aleS s = aleS t ∧ adIn s = adIn t) :
    addrNext s = addrNext t := by
  have hfell : fell s = fell t := by rw [fell, fell, hprev, hrd]
  cases hp : aleP t with
  | false => simp [addrNext, haddr, hfell, haleP, hp]
  | true =>
    obtain ⟨haleS, hadIn⟩ := hlatch hp
    simp only [addrNext, haddr, hfell, haleP, haleS, hadIn]

/-- Two stimuli with one rest answer one outcome when their first words agree on `rd` and `ale_p`, and with `ale_p` = 1
on `ale_s` and the bus value. -/
theorem step_inputs_congr (s : State) {xs ys : List InputWord} (hrest : xs.tail = ys.tail)
    (hrd : rd { s with inputs := xs } = rd { s with inputs := ys })
    (haleP : aleP { s with inputs := xs } = aleP { s with inputs := ys })
    (hlatch : aleP { s with inputs := ys } = true → aleS { s with inputs := xs } = aleS { s with inputs := ys } ∧
      adIn { s with inputs := xs } = adIn { s with inputs := ys }) :
    step { s with inputs := xs } = step { s with inputs := ys } := by
  have haddr : addrNext { s with inputs := xs } = addrNext { s with inputs := ys } :=
    addrNext_congr rfl rfl hrd haleP hlatch
  have hcommit (r t : State) :
      commit { s with inputs := xs } (busNext { s with inputs := xs }) r t =
        commit { s with inputs := ys } (busNext { s with inputs := ys }) r t := by
    simp only [commit, busNext, fell, hrest, hrd, haddr]
    rfl
  simp only [step_inputs, hcommit]

/-- Settles O9: `wr` is none of the fields that a tick reads, and with `ale_p` = 0 it reads neither `ale_s` nor the bus
value. -/
theorem unselectedInputsHaveNoEffect : Obligations.UnselectedInputsHaveNoEffect :=
  ⟨fun s _ _ _ _ _ => step_inputs_congr s rfl (by simp only [rd_wordFields]) (by simp only [aleP_wordFields])
      fun _ => by simp only [aleS_wordFields, adIn_wordFields, and_self],
   fun s _ _ _ _ _ _ _ => step_inputs_congr s rfl (by simp only [rd_wordFields]) (by simp only [aleP_wordFields])
      fun hlatch => by simp only [aleP_wordFields, Bool.false_eq_true] at hlatch⟩

end Sys2Proof.Machine
end

section
/-!
PROOFS. Decoding (30_encoding.md): the row that a word selects is the one row of its format whose match and mask the
word meets, the operand of a latch row, and O3 and O4.
-/

namespace Sys2Proof

/-! ### The wide words by the bits that their format decodes -/

theorem decode_latch {w : Nat} (hw : w < 2 ^ Format.latch.width) :
    decode .latch w = .ok (match w.testBit 0, w.testBit 1 with
      | true, true => .latchHi (dwOperand (BitVec.ofNat 21 w))
      | true, false => .latchLo (dwOperand (BitVec.ofNat 21 w))
      | false, _ => .latchNone) := by
  rw [decode, if_pos hw]
  simp only [decodeLatch, BitVec.getLsbD_ofNat, Nat.reduceLT, decide_true, Bool.true_and]
    <;> rfl

theorem decode_strobe {w : Nat} (hw : w < 2 ^ Format.strobe.width) :
    decode .strobe w = .ok (match w.testBit 20, w.testBit 2 with
      | false, false => .rdIdle
      | false, true => .rdRise
      | true, true => .rdHold
      | true, false => .rdFall) := by
  rw [decode, if_pos hw]
  simp only [decodeStrobe, BitVec.getLsbD_ofNat, Nat.reduceLT, decide_true, Bool.true_and]
    <;> rfl

theorem and_latchMask (w : Nat) : w &&& 0x000003 = (w.testBit 1).toNat * 2 + (w.testBit 0).toNat := by
  rw [show 0x000003 = 2 ^ 1 ||| 2 ^ 0 from rfl, Nat.and_or_distrib_left, Nat.and_two_pow, Nat.and_two_pow]
  cases w.testBit 1 <;> cases w.testBit 0 <;> rfl

theorem and_strobeMask (w : Nat) : w &&& 0x100004 = (w.testBit 20).toNat * 0x100000 + (w.testBit 2).toNat * 4 := by
  rw [show 0x100004 = 2 ^ 20 ||| 2 ^ 2 from rfl, Nat.and_or_distrib_left, Nat.and_two_pow, Nat.and_two_pow]
  cases w.testBit 20 <;> cases w.testBit 2 <;> rfl

/-! ### A word meets a row's match and mask exactly when its format's decoder answers that row -/

/-- The row of format `f` that the word selects, by its mnemonic. -/
def selected (f : Format) (w : Nat) : Option String := (decode f w).toOption.map Instr.mnemonic

theorem selected_of_decode {f : Format} {w : Nat} {i : Instr} (h : decode f w = .ok i) :
    selected f w = some i.mnemonic := by
  rw [selected, h]
  rfl

theorem rowMatches_latch_iff {w : Nat} (hw : w < 2 ^ Format.latch.width) {j : Instr} (hj : j.format = .latch) :
    j.rowMatches w ↔ selected .latch w = some j.mnemonic := by
  have hone : w &&& 0x000001 = (w.testBit 0).toNat := by simpa using Nat.and_two_pow w 0
  rw [selected_of_decode (decode_latch hw)]
  cases j with
  | latchHi | latchLo | latchNone =>
    simp only [Instr.rowMatches, Instr.maskBits, Instr.matchBits, and_latchMask, hone]
    cases w.testBit 0 <;> cases w.testBit 1 <;> simp [Instr.mnemonic]
  | _ => cases hj

theorem rowMatches_strobe_iff {w : Nat} (hw : w < 2 ^ Format.strobe.width) {j : Instr} (hj : j.format = .strobe) :
    j.rowMatches w ↔ selected .strobe w = some j.mnemonic := by
  rw [selected_of_decode (decode_strobe hw)]
  cases j with
  | rdIdle | rdRise | rdHold | rdFall =>
    simp only [Instr.rowMatches, Instr.maskBits, Instr.matchBits, and_strobeMask]
    cases w.testBit 20 <;> cases w.testBit 2 <;> simp [Instr.mnemonic]
  | _ => cases hj

/-- The sixteen words of a format of four bits, each tried with each row of the format. -/
theorem rowMatches_narrow_iff {w : Nat} {j : Instr} (hj : j.format.width = 4) (hw : w < 2 ^ 4) :
    j.rowMatches w ↔ selected j.format w = some j.mnemonic := by
  unfold Instr.rowMatches
  revert w
  cases j <;> cases hj <;> decide

theorem rowMatches_iff {w : Nat} (j : Instr) (hw : w < 2 ^ j.format.width) :
    j.rowMatches w ↔ selected j.format w = some j.mnemonic := by
  cases hj : j.format with
  | latch => exact rowMatches_latch_iff (hj ▸ hw) hj
  | strobe => exact rowMatches_strobe_iff (hj ▸ hw) hj
  | fsmState | txState | logStep =>
    rw [← hj]
    exact rowMatches_narrow_iff (by rw [hj]; rfl) (by rw [hj] at hw; exact hw)

/-! ### What the decoder answers, and where -/

theorem decodeLatch_format (dw : DecodeWord) : (decodeLatch dw).format = .latch := by
  unfold decodeLatch
  split <;> rfl

theorem decodeStrobe_format (dw : DecodeWord) : (decodeStrobe dw).format = .strobe := by
  unfold decodeStrobe
  split <;> rfl

theorem decodeTx_format : ∀ busy ready cntEnd bitEnd, (decodeTx busy ready cntEnd bitEnd).format = .txState := by
  decide

theorem decodeLog_format :
    ∀ fell writePhase skipNz room, (decodeLog fell writePhase skipNz room).format = .logStep := by
  decide

/-- R59: the codes up to 8 name the nine states. -/
theorem decodeFsm_named {c : Nibble} (h : c.toNat ≤ 8) : ∃ i, decodeFsm c = .ok i := by
  unfold decodeFsm
  interval_cases c.toNat <;> exact ⟨_, rfl⟩

/-- R60: the others name none. -/
theorem decodeFsm_ok {c : Nibble} {i : Instr} (h : decodeFsm c = .ok i) : c.toNat ≤ 8 ∧ i.format = .fsmState := by
  unfold decodeFsm at h
  split at h <;> cases h <;> exact ⟨by omega, rfl⟩

/-- A word of its format decodes to a row, unless it is an unused state code. -/
theorem decode_named {f : Format} {w : Nat} (hw : w < 2 ^ f.width) (h : ¬ (f = .fsmState ∧ 9 ≤ w)) :
    ∃ i, decode f w = .ok i := by
  unfold decode
  rw [if_pos hw]
  cases f with
  | fsmState =>
    have hle : w ≤ 8 := by simpa [Nat.lt_succ_iff] using h
    exact decodeFsm_named ((Nat.mod_le _ _).trans hle)
  | latch | strobe | txState | logStep => exact ⟨_, rfl⟩

/-- What a word decodes to is a row of the word's format, and an unused state code decodes to none. -/
theorem decode_ok {f : Format} {w : Nat} {i : Instr} (hw : w < 2 ^ f.width) (h : decode f w = .ok i) :
    i.format = f ∧ ¬ (f = .fsmState ∧ 9 ≤ w) := by
  unfold decode at h
  rw [if_pos hw] at h
  cases f with
  | latch => cases h; exact ⟨decodeLatch_format _, by simp⟩
  | strobe => cases h; exact ⟨decodeStrobe_format _, by simp⟩
  | txState => cases h; exact ⟨decodeTx_format _ _ _ _, by simp⟩
  | logStep => cases h; exact ⟨decodeLog_format _ _ _ _, by simp⟩
  | fsmState =>
    obtain ⟨hc, hf⟩ := decodeFsm_ok h
    have hmod : w % 2 ^ 4 = w := Nat.mod_eq_of_lt hw
    rw [BitVec.toNat_ofNat, hmod] at hc
    exact ⟨hf, fun h9 => by omega⟩

/-- Settles O3: a row's words are those that decode to its mnemonic (`rowMatches_iff`), so the row that a word decodes
to is met, and any other row that is met has its mnemonic. -/
theorem exactlyOneRowOfAFormatMatches : Obligations.ExactlyOneRowOfAFormatMatches := by
  refine fun f w hw => ⟨fun i hi => ?_, fun ⟨i, hi⟩ => (decode_ok hw hi).2, decode_named hw⟩
  have hsel := selected_of_decode hi
  obtain ⟨rfl, -⟩ := decode_ok hw hi
  refine ⟨rfl, (rowMatches_iff i hw).2 hsel, fun j hj hmatch => ?_⟩
  have hselj := (rowMatches_iff j (hj ▸ hw)).1 hmatch
  rw [hj, hsel] at hselj
  exact (Option.some.inj hselj).symm

end Sys2Proof

namespace Sys2Proof.Machine

/-! ### The latch operand -/

/-- The latch group of a decode word, by the fields of its input word (R55, R57): the tick that samples that word
decodes it, and `latchRow_eq` says how. -/
theorem decodeLatch_wordFields (q : Bool) (d : Half) (wr rd aleS aleP : Bool) :
    decodeLatch (BitVec.ofBool q ++ wordFields d wr rd aleS aleP) =
      if aleP then (if aleS then .latchHi d else .latchLo d) else .latchNone := by
  have hfields (s : State) : latchRow { s with inputs := wordFields d wr rd aleS aleP :: [] } =
      if aleP then (if aleS then .latchHi d else .latchLo d) else .latchNone := by
    rw [latchRow_eq, aleP_wordFields, aleS_wordFields, adIn_wordFields]
    cases aleP <;> cases aleS <;> rfl
  exact hfields { State.reset with rdPrev := q }

/-- Settles O4. -/
theorem latchOperandIsTheBusValue : Obligations.LatchOperandIsTheBusValue := fun q d wr rd aleS =>
  ⟨decodeLatch_wordFields q d wr rd aleS true, decodeLatch_wordFields q d wr rd aleS false⟩

end Sys2Proof.Machine
end

section
/-!
PROOFS. The text of a record line (R62, R74 to R78): the digits of a field and their parsing, the line field by field,
and O51.
-/

namespace Sys2Proof.Machine

/-! ### Hex digits -/

@[simp] theorem hexDigits_length (n v : Nat) : (hexDigits n v).length = n := by
  induction n with
  | zero => rfl
  | succ n ih => rw [hexDigits, List.length_cons, ih]

@[simp] theorem hex_length (v L : Nat) : (hex v L).length = digitCount L := hexDigits_length _ _

theorem parseHexDigit_hexDigit {k : Nat} (h : k < 16) : parseHexDigit (hexDigit k) = some k := by
  decide +revert

/-- Parsing the digits of `v` after those of `acc` reads the value of both (R78). -/
theorem parseHexFrom_hexDigits (acc n v : Nat) :
    parseHexFrom acc (hexDigits n v) = some (acc * 16 ^ n + v % 16 ^ n) := by
  induction n generalizing acc with
  | zero => simp [hexDigits, parseHexFrom, Nat.mod_one]
  | succ n ih =>
    have hdigit : v / 16 ^ n % 16 < 16 := Nat.mod_lt _ (by decide)
    simp only [hexDigits, parseHexFrom, parseHexDigit_hexDigit hdigit, ih, Nat.mod_pow_succ]
    ring_nf

/-- The digits of an `L`-bit field have room for its value (R74). -/
theorem two_pow_le_sixteen_pow_digitCount (L : Nat) : 2 ^ L ≤ 16 ^ digitCount L := by
  have hbits : L ≤ 4 * digitCount L := by unfold digitCount; omega
  calc 2 ^ L ≤ 2 ^ (4 * digitCount L) := Nat.pow_le_pow_right (by decide) hbits
    _ = 16 ^ digitCount L := Nat.pow_mul 2 4 _

/-- R78: a field's text parses to its value. -/
theorem parseHex_hex {v L : Nat} (h : v < 2 ^ L) : parseHex (hex v L) = some v := by
  rw [parseHex, hex, parseHexFrom_hexDigits, Nat.zero_mul, Nat.zero_add,
    Nat.mod_eq_of_lt (h.trans_le (two_pow_le_sixteen_pow_digitCount L))]

/-- So does a field at the start of a text, cut to its digits. -/
theorem parseHex_take_hex {v L n : Nat} (h : v < 2 ^ L) (hn : digitCount L = n) (rest : List Byte) :
    parseHex ((hex v L ++ rest).take n) = some v := by
  rw [List.take_left' ((hex_length v L).trans hn), parseHex_hex h]

/-! ### The record line -/

@[simp] theorem recData_record (a : Addr) (d : Half) : recData (record a d) = d :=
  BitVec.extractLsb'_append_eq_right

/-- The line as its fields, each before what follows it (R62). -/
theorem recordLine_eq (p : Params) (i : Nat) (v : Record) :
    recordLine p i v = hex i (idxBits p) ++ 0x20#8 :: (hex (recAddr v).toNat 32 ++ 0x20#8 ::
      (hex (recData v).toNat 16 ++ [0x0D#8, 0x0A#8])) := by
  simp only [recordLine, List.append_assoc, List.cons_append, List.nil_append]

/-- `REC_LEN` (R62). -/
@[simp] theorem recordLine_length (p : Params) (i : Nat) (v : Record) : (recordLine p i v).length = recLen p := by
  simp [recordLine_eq, recLen, idxDigits, digitCount]

section
variable (p : Params) (i : Nat) (v : Record)

theorem recordLine_drop_index :
    (recordLine p i v).drop (idxDigits p) = 0x20#8 :: (hex (recAddr v).toNat 32 ++ 0x20#8 ::
      (hex (recData v).toNat 16 ++ [0x0D#8, 0x0A#8])) := by
  rw [recordLine_eq]
  exact List.drop_left' (hex_length _ _)

theorem recordLine_drop_address :
    (recordLine p i v).drop (idxDigits p + 9) = 0x20#8 :: (hex (recData v).toNat 16 ++ [0x0D#8, 0x0A#8]) := by
  rw [← List.drop_drop, recordLine_drop_index, List.drop_succ_cons]
  exact List.drop_left' (hex_length _ _)

theorem recordLine_drop_data : (recordLine p i v).drop (idxDigits p + 14) = [0x0D#8, 0x0A#8] := by
  rw [show idxDigits p + 14 = idxDigits p + 9 + 5 from rfl, ← List.drop_drop, recordLine_drop_address,
    List.drop_succ_cons]
  exact List.drop_left' (hex_length _ _)

end

/-- Settles O51: each field is what the line starts with, or starts with after the fields before it. -/
theorem recordLineLayout : Obligations.RecordLineLayout := by
  refine ⟨by decide, fun p i a d hi => ?_⟩
  have hindex := recordLine_drop_index p i (record a d)
  have haddr := recordLine_drop_address p i (record a d)
  rw [recAddr_record, recData_record] at hindex
  rw [recData_record] at haddr
  refine ⟨recordLine_length p i _, ?_, ?_, ?_, ?_, ?_, recordLine_drop_data p i _⟩
  · rw [recordLine_eq]
    exact parseHex_take_hex hi rfl _
  · rw [← List.head?_drop, hindex, List.head?_cons]
  · rw [← List.drop_drop, hindex, List.drop_succ_cons, List.drop_zero]
    exact parseHex_take_hex a.isLt rfl _
  · rw [← List.head?_drop, haddr, List.head?_cons]
  · rw [show idxDigits p + 10 = idxDigits p + 9 + 1 from rfl, ← List.drop_drop, haddr, List.drop_succ_cons,
      List.drop_zero]
    exact parseHex_take_hex d.isLt rfl _

end Sys2Proof.Machine
end

section
/-!
PROOFS. The script statements LATCH and READ (R68, R173): what a tick does to the address, the read sample and the
stimulus, what a strobe held for some ticks does and captures, and O25.
-/

namespace Sys2Proof.Machine

open Host.Outcome

/-! ### The bus registers after a tick -/

theorem step_bus {s t : State} (h : step s = next t) :
    t.addr = addrNext s ∧ t.rdPrev = rd s ∧ t.inputs = s.inputs.tail := by
  obtain ⟨r, u, -, -, rfl⟩ := step_eq_next.1 h
  exact ⟨rfl, rfl, rfl⟩

theorem inputWord_cons {s : State} {w : InputWord} {rest : List InputWord} (h : s.inputs = w :: rest) :
    inputWord s = w := by
  rw [inputWord, h]

/-- Without the primary enable the address takes the increment of a falling edge alone (R82, R83). -/
theorem addrNext_of_aleP_false {s : State} (h : aleP s = false) :
    addrNext s = if fell s then advance s.addr else s.addr := by
  simp [addrNext, h]

/-! ### LATCH -/

/-- The two latch writes replace the whole address (R80, R81). -/
theorem setLow_setHigh (a : Addr) (h l : Half) : setLow (setHigh a h) l = h ++ l := by
  rw [setLow, setHigh, BitVec.extractLsb'_append_eq_left]

theorem high_append_low (a : Addr) : a.extractLsb' 16 16 ++ a.extractLsb' 0 16 = a :=
  (BitVec.extractLsb'_append_extractLsb'_eq_extractLsb' rfl).trans BitVec.extractLsb'_eq_self

section
variable {s : State} {h : Half} {low : Nibble} {rest : List InputWord} (hin : s.inputs = latchWord h low :: rest)
include hin

theorem inputWord_latchWord_low {i : Nat} (hi : i < 4) : (inputWord s).getLsbD i = low.getLsbD i := by
  rw [inputWord_cons hin, latchWord, BitVec.getLsbD_append, if_pos hi]

theorem adIn_latchWord : adIn s = h := by
  rw [adIn, inputWord_cons hin]
  exact BitVec.extractLsb'_append_eq_left

/-- A tick of a latch word: the enables of its low digit write its bus value over the address after the increment of a
falling edge (R80, R81, R84). -/
theorem addrNext_latchWord :
    addrNext s =
      let a := if fell s then advance s.addr else s.addr
      if low.getLsbD 0 then (if low.getLsbD 1 then setHigh a h else setLow a h) else a := by
  simp only [addrNext, aleP, aleS, inputWord_latchWord_low hin (i := 0) (by decide),
    inputWord_latchWord_low hin (i := 1) (by decide), adIn_latchWord hin]

end

/-- R68: the two phases of `LATCH` set the whole address; the first has `rd` = 0, so no edge falls in the second. -/
theorem run_latch {s t : State} {a : Addr} {rest : List InputWord} (hin : s.inputs = expand (.latch a) ++ rest)
    (hrun : run 2 s = next t) : t.addr = a ∧ t.inputs = rest := by
  obtain ⟨u, hu, hrest⟩ := andThen_eq_next.1 hrun
  obtain ⟨v, hv, hend⟩ := andThen_eq_next.1 hrest
  cases hend
  obtain ⟨huaddr, huprev, huin⟩ := step_bus hu
  obtain ⟨hvaddr, -, hvin⟩ := step_bus hv
  have hin2 : u.inputs = latchWord (a.extractLsb' 0 16) 0x1#4 :: rest := by rw [huin, hin]; rfl
  have hrd : rd s = false := inputWord_latchWord_low hin (i := 2) (by decide)
  have hfell : fell u = false := by rw [fell, huprev, hrd, Bool.false_and]
  refine ⟨?_, by rw [hvin, hin2, List.tail_cons]⟩
  have hhigh : u.addr = setHigh (if fell s then advance s.addr else s.addr) (a.extractLsb' 16 16) :=
    huaddr.trans (addrNext_latchWord hin)
  have hlow : t.addr = setLow u.addr (a.extractLsb' 0 16) := by
    rw [hvaddr, addrNext_latchWord hin2, hfell]
    rfl
  rw [hlow, hhigh, setLow_setHigh, high_append_low]

/-! ### READ -/

/-- The captures of a run cut into a first part and a rest. -/
theorem captures_add {m : Nat} (n : Nat) {s u : State} (h : run m s = next u) :
    captures (m + n) s = captures m s ++ captures n u := by
  induction m generalizing s with
  | zero =>
    cases h
    rw [Nat.zero_add, captures, List.nil_append]
  | succ m ih =>
    obtain ⟨v, hv, hrest⟩ := andThen_eq_next.1 h
    rw [Nat.succ_add, captures, captures, hv, List.append_assoc]
    exact congrArg _ (ih hrest)

/-- One tick captures one read at most. -/
theorem captures_one_length (s : State) : (captures 1 s).length ≤ 1 := by
  have hone : captures 1 s = if fell s && writePhase s.rep.st then [captured s] else [] := by
    rw [captures]
    cases step s <;> exact List.append_nil _
  rw [hone]
  split
  · exact le_refl _
  · exact Nat.zero_le _

/-- While the strobe is high no edge falls: the address stays and nothing is captured (R70, R82). -/
theorem run_strobe {n : Nat} {s t : State} {rest : List InputWord}
    (hin : s.inputs = List.replicate n 0x00004#20 ++ rest) (hrun : run n s = next t) :
    t.addr = s.addr ∧ t.inputs = rest ∧ captures n s = [] ∧ (1 ≤ n ∨ s.rdPrev = true → t.rdPrev = true) := by
  induction n generalizing s with
  | zero =>
    cases hrun
    exact ⟨rfl, hin, rfl, fun h => h.resolve_left (by decide)⟩
  | succ n ih =>
    obtain ⟨u, hu, hrest⟩ := andThen_eq_next.1 hrun
    obtain ⟨huaddr, huprev, huin⟩ := step_bus hu
    have hword : inputWord s = 0x00004#20 := inputWord_cons hin
    have hrd : rd s = true := by rw [rd, hword]; rfl
    have haleP : aleP s = false := by rw [aleP, hword]; rfl
    have hfell : fell s = false := by rw [fell, hrd]; exact Bool.and_false _
    obtain ⟨htaddr, htin, hcap, htprev⟩ := ih (s := u) (by rw [huin, hin]; rfl) hrest
    refine ⟨?_, htin, ?_, fun _ => htprev (.inr (huprev.trans hrd))⟩
    · rw [htaddr, huaddr, addrNext_of_aleP_false haleP, hfell]
      rfl
    · rw [captures, hfell, hu]
      exact hcap

/-- R173: `READ n` ends its strobe in its last tick, where the one edge falls. -/
theorem run_read {n : Nat} {s t : State} {rest : List InputWord} (hn : 1 ≤ n)
    (hin : s.inputs = expand (.read n) ++ rest) (hrun : run (n + 1) s = next t) :
    t.addr = s.addr + 2#32 ∧ (captures (n + 1) s).length ≤ 1 ∧ t.rdPrev = false ∧ t.inputs = rest := by
  rw [run_add] at hrun
  obtain ⟨u, hu, hlast⟩ := andThen_eq_next.1 hrun
  obtain ⟨v, hv, hend⟩ := andThen_eq_next.1 hlast
  cases hend
  rw [expand, List.append_assoc] at hin
  obtain ⟨huaddr, huin, hcap, huprev⟩ := run_strobe hin hu
  obtain ⟨hvaddr, hvprev, hvin⟩ := step_bus hv
  have hword : inputWord u = 0x00000#20 := inputWord_cons huin
  have hrd : rd u = false := by rw [rd, hword]; rfl
  have haleP : aleP u = false := by rw [aleP, hword]; rfl
  have hfell : fell u = true := by rw [fell, hrd, huprev (.inl hn)]; rfl
  refine ⟨?_, ?_, hvprev.trans hrd, by rw [hvin, huin]; rfl⟩
  · rw [hvaddr, addrNext_of_aleP_false haleP, hfell, if_pos rfl, huaddr, advance]
  · rw [captures_add 1 hu, hcap, List.nil_append]
    exact captures_one_length u

/-- Settles O25. -/
theorem scriptStatementsLatchAndRead : Obligations.ScriptStatementsLatchAndRead :=
  ⟨fun _ _ _ _ => run_latch, fun _ _ _ _ => run_read, by decide⟩

end Sys2Proof.Machine
end

section
/-!
PROOFS. What a tick does to the core at its character boundary, whatever the transmitter: the steps of the report
machine, one for each branch of its rules (R114 to R122), the inversion of a tick over them for every transmitter that
meets the contract, the unused state codes (R60), and O48.
-/

namespace Sys2Proof.Machine

open Host.Outcome

/-! ### The steps of the report machine -/

/-- The next report registers of the state `s`, with the branch of the rule that gives them. -/
inductive ReportStep (s : State) : ReportRegs → Prop where
  /-- R114 -/
  | sendBanner (hst : s.rep.st = St.sendInitialChar) : ReportStep s (send s.rep (bannerChar s) St.initWaitAck)
  /-- R115 and R119 without an acknowledge -/
  | holdChar (hst : s.rep.st = St.initWaitAck ∨ s.rep.st = St.waitAck) (hack : s.tx.ack = false) :
    ReportStep s (quiet s.rep)
  /-- R115, not the banner's last character -/
  | bannerMore (hst : s.rep.st = St.initWaitAck) (hack : s.tx.ack = true) (hcidx : s.rep.cidx ≠ s.par.bannerLen - 1) :
    ReportStep s { quiet s.rep with cidx := s.rep.cidx + 1, st := St.initialWait }
  /-- R115, the banner's last character -/
  | bannerLast (hst : s.rep.st = St.initWaitAck) (hack : s.tx.ack = true) (hcidx : s.rep.cidx = s.par.bannerLen - 1) :
    ReportStep s { quiet s.rep with cidx := 0, st := St.waitFull }
  /-- R116 and R120 before the last tick -/
  | delayChar (hst : s.rep.st = St.initialWait ∨ s.rep.st = St.wait) (hdly : s.rep.dly ≠ s.par.dChar - 1) :
    ReportStep s { quiet s.rep with dly := s.rep.dly + 1 }
  /-- R116, the last tick -/
  | bannerNext (hst : s.rep.st = St.initialWait) (hdly : s.rep.dly = s.par.dChar - 1) :
    ReportStep s { quiet s.rep with dly := 0, st := St.sendInitialChar }
  /-- R117 before the timeout -/
  | holdFull (hst : s.rep.st = St.waitFull) (hend : ¬ (full s = true ∨ s.rep.tmo = 0)) :
    ReportStep s { quiet s.rep with tmo := s.rep.tmo - 1 }
  /-- R117, full or at the timeout -/
  | startDrain (hst : s.rep.st = St.waitFull) (hend : full s = true ∨ s.rep.tmo = 0) :
    ReportStep s { quiet s.rep with st := St.sendChar }
  /-- R118, nothing captured -/
  | drainNothing (hst : s.rep.st = St.sendChar) (hwp : s.log.wp = 0) : ReportStep s { quiet s.rep with st := St.done }
  /-- R118 -/
  | sendLine (v : Record) (hst : s.rep.st = St.sendChar) (hwp : s.log.wp ≠ 0)
    (hread : logRead s.par s.log.cells s.rep.rp = some v) : ReportStep s (send s.rep (lineChar s v) St.waitAck)
  /-- R119, not the line's last character -/
  | lineMore (hst : s.rep.st = St.waitAck) (hack : s.tx.ack = true) (hcidx : s.rep.cidx ≠ recLen s.par - 1) :
    ReportStep s { quiet s.rep with cidx := s.rep.cidx + 1, st := St.wait }
  /-- R119, the line's last character -/
  | lineLast (hst : s.rep.st = St.waitAck) (hack : s.tx.ack = true) (hcidx : s.rep.cidx = recLen s.par - 1) :
    ReportStep s { quiet s.rep with cidx := 0, st := St.actualDelay }
  /-- R120, the last tick -/
  | lineNext (hst : s.rep.st = St.wait) (hdly : s.rep.dly = s.par.dChar - 1) :
    ReportStep s { quiet s.rep with dly := 0, st := St.sendChar }
  /-- R121 before the last tick -/
  | delayRecord (hst : s.rep.st = St.actualDelay) (hdly : s.rep.dly ≠ s.par.dRec - 1) :
    ReportStep s { quiet s.rep with dly := s.rep.dly + 1 }
  /-- R121, the last tick, with a record more -/
  | recordNext (hst : s.rep.st = St.actualDelay) (hdly : s.rep.dly = s.par.dRec - 1) (hrp : s.rep.rp + 1 < s.log.wp) :
    ReportStep s { quiet s.rep with dly := 0, rp := s.rep.rp + 1, st := St.sendChar }
  /-- R121, the last tick of the last record -/
  | recordLast (hst : s.rep.st = St.actualDelay) (hdly : s.rep.dly = s.par.dRec - 1) (hrp : ¬ s.rep.rp + 1 < s.log.wp) :
    ReportStep s { quiet s.rep with dly := 0, st := St.done }
  /-- R122 -/
  | stayDone (hst : s.rep.st = St.done) : ReportStep s (quiet s.rep)
  /-- R60 -/
  | unused (hst : 9 ≤ s.rep.st.toNat) : ReportStep s s.rep

section
variable {s : State}

theorem reportStep_awaitBanner (hst : s.rep.st = St.initWaitAck) :
    ReportStep s (awaitAck s.rep s.tx.ack s.par.bannerLen St.waitFull St.initialWait) := by
  unfold awaitAck
  split
  · split
    · exact .bannerLast hst ‹_› ‹_›
    · exact .bannerMore hst ‹_› ‹_›
  · exact .holdChar (.inl hst) (Bool.eq_false_of_not_eq_true ‹_›)

theorem reportStep_awaitLine (hst : s.rep.st = St.waitAck) :
    ReportStep s (awaitAck s.rep s.tx.ack (recLen s.par) St.actualDelay St.wait) := by
  unfold awaitAck
  split
  · split
    · exact .lineLast hst ‹_› ‹_›
    · exact .lineMore hst ‹_› ‹_›
  · exact .holdChar (.inr hst) (Bool.eq_false_of_not_eq_true ‹_›)

theorem reportStep_delayBanner (hst : s.rep.st = St.initialWait) :
    ReportStep s (holdDelay s.rep s.par.dChar St.sendInitialChar) := by
  unfold holdDelay
  split
  · exact .bannerNext hst ‹_›
  · exact .delayChar (.inl hst) ‹_›

theorem reportStep_delayLine (hst : s.rep.st = St.wait) :
    ReportStep s (holdDelay s.rep s.par.dChar St.sendChar) := by
  unfold holdDelay
  split
  · exact .lineNext hst ‹_›
  · exact .delayChar (.inr hst) ‹_›

theorem reportStep_holdFull (hst : s.rep.st = St.waitFull) : ReportStep s (Machine.holdFull s.rep (full s)) := by
  unfold Machine.holdFull
  split
  · exact .startDrain hst ‹_›
  · exact .holdFull hst ‹_›

theorem reportStep_holdRecord (hst : s.rep.st = St.actualDelay) :
    ReportStep s (holdRecord s.rep s.par.dRec s.log.wp) := by
  unfold holdRecord
  split
  · split
    · exact .recordNext hst ‹_› ‹_›
    · exact .recordLast hst ‹_› ‹_›
  · exact .delayRecord hst ‹_›

theorem reportStep_sendChar {r : State} (hst : s.rep.st = St.sendChar) (h : execStSendChar s = next r) :
    ReportStep s r.rep := by
  unfold execStSendChar at h
  split at h
  · cases h
    exact .drainNothing hst ‹_›
  · split at h
    · cases h
      exact .sendLine _ hst ‹_› ‹_›
    · cases h

end

/-- The row of a named code answers for the report side. -/
theorem exec_of_reportSide {s r : State} {c : Nibble} {i : Instr} (hst : s.rep.st = c) (hi : decodeFsm c = .ok i)
    (h : reportSide s = next r) : exec i s = next r := by
  rwa [reportSide, fsmRow, hst, hi] at h

/-- The inversion of the report side: what it answers is a step of the report machine. -/
theorem reportStep_of_reportSide {s r : State} (h : reportSide s = next r) : ReportStep s r.rep := by
  by_cases hnamed : s.rep.st.toNat ≤ 8
  · obtain (hst | hst | hst) | (hst | hst | hst) | (hst | hst | hst) := st_cases hnamed <;>
      have hexec := exec_of_reportSide hst rfl h
    · cases hexec
      exact .sendBanner hst
    · cases hexec
      exact reportStep_awaitBanner hst
    · cases hexec
      exact reportStep_delayBanner hst
    · cases hexec
      exact reportStep_holdFull hst
    · cases hexec
      exact reportStep_holdRecord hst
    · cases hexec
      exact .stayDone hst
    · exact reportStep_sendChar hst hexec
    · cases hexec
      exact reportStep_awaitLine hst
    · cases hexec
      exact reportStep_delayLine hst
  · have hunused : 9 ≤ s.rep.st.toNat := by omega
    rw [reportSide_unused s hunused] at h
    cases h
    exact .unused hunused

/-- No step of a named state leads to an unused code (R60). -/
theorem ReportStep.st_le {s : State} {q : ReportRegs} (h : ReportStep s q) (hst : s.rep.st.toNat ≤ 8) :
    q.st.toNat ≤ 8 := by
  cases h with
  | holdChar | delayChar | holdFull | delayRecord | stayDone => exact hst
  | unused hunused => omega
  | _ => simp

/-! ### The unused state codes -/

/-- The latch row on the address that the strobe row leaves ends the bus side (R84). -/
theorem exec_latchRow (s : State) : ∃ s1, exec (strobeRow s) s = next s1 ∧ exec (latchRow s) s1 = next (busNext s) :=
  andThen_eq_next.1 (busSide_eq s)

theorem logStep_of_readPhase {s : State} (h : writePhase s.rep.st = false) : logStep s = s.log := by
  rw [logStep, h]
  rfl

/-- In the read phase no tick changes the log (R101). -/
theorem busNext_log_of_readPhase {s : State} (h : writePhase s.rep.st = false) : (busNext s).log = s.log := by
  rw [busNext_log, logStep_of_readPhase h, ite_self]

theorem writePhase_unused {st : Nibble} (h : 9 ≤ st.toNat) : writePhase st = false := by
  decide +revert

theorem step_of_reportSide {s r : State} (h : reportSide s = next r) :
    step s = andThen (exec (txRow s) s) fun t => next (commit s (busNext s) r t) := by
  rw [step, tick, tickWith_eq, h, andThen_next]

/-- Settles O48: with an unused code the report side answers the state itself, so the tick is the bus side's and the
transmitter's; and no step of a named state leads to such a code. -/
theorem unusedStateCodesAreStuck : Obligations.UnusedStateCodesAreStuck := by
  refine ⟨fun s hst hclear => ?_, fun s hst hbusy hready => ?_, fun s t hst h => ?_⟩
  · obtain ⟨s1, hstrobe, hlatch⟩ := exec_latchRow s
    have hlog : (busNext s).log = s.log := busNext_log_of_readPhase (writePhase_unused hst)
    have hstep := step_of_reportSide (reportSide_unused s hst)
    rw [txRow_next s hclear, andThen_next, commit, hlog] at hstep
    refine ⟨s1, busNext s, _, hstrobe, hlatch, txRow_next s hclear, hstep, hlog, fun hfell haleP => ?_⟩
    rw [busNext_addr, addrNext_of_aleP_false haleP, if_pos hfell, advance]
  · rw [step_of_reportSide (reportSide_unused s hst), txRow_fault s hbusy hready, andThen_fault]
  · obtain ⟨r, u, hr, -, rfl⟩ := step_eq_next.1 h
    exact (reportStep_of_reportSide hr).st_le hst

end Sys2Proof.Machine
end

section
/-!
PROOFS. The invariant of the core at its character boundary (R107, R124, R131, and the ranges of 10_state.md) over a
tick: what a tick with a transmitter that meets the contract does, and that it keeps each part of the invariant.
-/

namespace Sys2Proof.Machine

open Host.Outcome

/-! ### A tick at the character boundary -/

/-- What a tick from `s` to `t` does, whatever the transmitter, as long as it meets the contract (R130 to R133): it
takes a character when none is held, and its choice `want` acknowledges the one it holds. -/
structure CoreTick (s t : State) : Prop where
  cfg : t.cfg = s.cfg
  log : t.log = if fell s then logStep s else s.log
  rep : ReportStep s t.rep
  tx : ∃ want, t.tx.busy = (holdsChar s && !want) ∧ t.tx.ack = (holdsChar s && want)

theorem coreTick_of_stepAbstract {want : Bool} {s t : State} (h : stepAbstract want s = next t) : CoreTick s t := by
  obtain ⟨r, u, hr, hu, rfl⟩ := stepAbstract_eq_next.1 h
  have hrep := reportStep_of_reportSide hr
  refine ⟨rfl, rfl, hrep, want, ?_⟩
  unfold abstractTx at hu
  split at hu
  · cases hu
  · cases hu
    exact ⟨rfl, rfl⟩

/-- A transmitter row that does not fault was not offered a character over the one it holds (R140). -/
theorem exec_txRow_eq_next {s u : State} (h : exec (txRow s) s = next u) : u = transmit s (txNext s) := by
  by_cases hclash : s.tx.busy = true ∧ s.rep.txReady = true
  · obtain ⟨hbusy, hready⟩ := hclash
    rw [txRow_fault s hbusy hready] at h
    cases h
  · rw [txRow_next s (by simpa only [not_and_or, Bool.not_eq_true] using hclash)] at h
    cases h
    rfl

/-- The reference transmitter acknowledges at the end of the stop bit, and only there (R138). -/
theorem txNext_contract (s : State) : ∃ want, (txNext s).busy = (holdsChar s && !want) ∧
    (txNext s).ack = (holdsChar s && want) := by
  refine ⟨s.tx.busy && cntEnd s && bitEnd s, ?_⟩
  unfold txNext holdsChar
  cases hb : s.tx.busy <;> cases hr : s.rep.txReady <;> cases cntEnd s <;> cases bitEnd s <;> simp [hb]

theorem coreTick_of_step {s t : State} (h : step s = next t) : CoreTick s t := by
  obtain ⟨r, u, hr, hu, rfl⟩ := step_eq_next.1 h
  have hrep := reportStep_of_reportSide hr
  rw [exec_txRow_eq_next hu]
  exact ⟨rfl, rfl, hrep, txNext_contract s⟩

/-! ### The log -/

/-- What the log step can do: nothing, a skip, or an append with room for it (R101 to R104). -/
theorem logStep_cases (s : State) :
    logStep s = s.log ∨ (0 < s.log.skip ∧ logStep s = skipped s) ∨
      (s.log.skip = 0 ∧ s.log.wp < s.par.cap ∧ logStep s = appended s) := by
  unfold logStep
  split
  · split
    · exact .inr (.inl ⟨‹_›, rfl⟩)
    · split
      · exact .inr (.inr ⟨by omega, ‹_›, rfl⟩)
      · exact .inl rfl
  · exact .inl rfl

/-- With the log below `wp` listed, an append lists the captured pair after it (R103). -/
theorem appended_eq {s : State} (hroom : s.log.wp < s.par.cap)
    (hkeys : s.log.cells.map Prod.fst = List.range s.log.wp) :
    appended s = { s.log with cells := s.log.cells ++ [(s.log.wp, captured s)], wp := s.log.wp + 1 } := by
  have hbelow : ∀ k ∈ s.log.cells.map Prod.fst, k < s.log.wp := by simp [hkeys]
  rw [appended, if_pos hroom, logWrite, if_pos hroom, Memory.write_append _ _ _ hbelow]

theorem CoreTick.logInv {s t : State} (h : CoreTick s t) (hs : LogInv s) : LogInv t := by
  obtain ⟨hwp, hskip, hzero, hkeys⟩ := hs
  have hlog := h.log
  have hpar : t.par = s.par := congrArg Config.params h.cfg
  rw [LogInv, hpar]
  split at hlog
  · obtain hsame | ⟨hpos, hskipped⟩ | ⟨hskip0, hroom, happend⟩ := logStep_cases s
    · rw [hlog, hsame]
      exact ⟨hwp, hskip, hzero, hkeys⟩
    · rw [hlog, hskipped]
      exact ⟨hwp, (Nat.sub_le _ _).trans hskip, fun hw => absurd (hzero hw) (by omega), hkeys⟩
    · rw [hlog, happend, appended_eq hroom hkeys]
      refine ⟨hroom, hskip, fun _ => hskip0, ?_⟩
      simp [hkeys, List.range_succ]
  · rw [hlog]
    exact ⟨hwp, hskip, hzero, hkeys⟩

theorem CoreTick.log_of_readPhase {s t : State} (h : CoreTick s t) (hst : readPhase s.rep.st = true) :
    t.log = s.log := by
  have hwrite : writePhase s.rep.st = false := by simpa [readPhase] using hst
  rw [h.log, logStep_of_readPhase hwrite, ite_self]

/-! ### The handshake -/

theorem ackWait_unused {st : Nibble} (h : 9 ≤ st.toNat) : ackWait st = false := by
  decide +revert

/-- Outside the acknowledge waits, and in the acknowledge's tick, the transmitter holds no character (R124, R131). -/
theorem holdsChar_eq_false {s : State} (hs : HandshakeInv s) (h : ackWait s.rep.st = false ∨ s.tx.ack = true) :
    holdsChar s = false := by
  obtain ⟨hwait, hrest⟩ := hs
  cases hst : ackWait s.rep.st with
  | false => simp [holdsChar, hrest hst]
  | true =>
    have hack := h.resolve_left (by simp [hst])
    obtain ⟨-, -, hno⟩ | ⟨-, -, hno⟩ | ⟨hready, hbusy, -⟩ := hwait hst
    · simp [hack] at hno
    · simp [hack] at hno
    · simp [holdsChar, hready, hbusy]

/-- Before the acknowledge's tick an acknowledge wait is a wait for the character held. -/
theorem holdsChar_eq_true {s : State} (hs : HandshakeInv s) (hst : ackWait s.rep.st = true) (hack : s.tx.ack = false) :
    holdsChar s = true := by
  obtain ⟨hready, -, -⟩ | ⟨-, hbusy, -⟩ | ⟨-, -, hyes⟩ := hs.1 hst
  · simp [holdsChar, hready]
  · simp [holdsChar, hbusy]
  · simp [hack] at hyes

section
variable {s t : State} (h : CoreTick s t)
include h

theorem CoreTick.idle (hidle : holdsChar s = false) : t.tx.busy = false ∧ t.tx.ack = false := by
  obtain ⟨want, hbusy, hack⟩ := h.tx
  rw [hbusy, hack, hidle]
  exact ⟨rfl, rfl⟩

/-- The tick after a send. -/
theorem CoreTick.handshakeInv_of_send (hs : HandshakeInv s) (hrest : ackWait s.rep.st = false)
    (hst : ackWait t.rep.st = true) (hready : t.rep.txReady = true) : HandshakeInv t := by
  obtain ⟨hbusy, hack⟩ := h.idle (holdsChar_eq_false hs (.inl hrest))
  exact ⟨fun _ => .inl ⟨hready, hbusy, hack⟩, fun hno => by simp [hst] at hno⟩

/-- A tick of an acknowledge wait without an acknowledge: the choice is whether it comes in the next. -/
theorem CoreTick.handshakeInv_of_hold (hs : HandshakeInv s) (hwait : ackWait s.rep.st = true)
    (hack : s.tx.ack = false) (hst : t.rep.st = s.rep.st) (hready : t.rep.txReady = false) : HandshakeInv t := by
  obtain ⟨want, htbusy, htack⟩ := h.tx
  rw [holdsChar_eq_true hs hwait hack] at htbusy htack
  refine ⟨fun _ => .inr ?_, fun hno => by simp [hst, hwait] at hno⟩
  cases want
  · exact .inl ⟨hready, htbusy, htack⟩
  · exact .inr ⟨hready, htbusy, htack⟩

/-- A tick that ends outside the acknowledge waits, and started there or with the acknowledge. -/
theorem CoreTick.handshakeInv_of_rest (hs : HandshakeInv s) (hfree : ackWait s.rep.st = false ∨ s.tx.ack = true)
    (hst : ackWait t.rep.st = false) (hready : t.rep.txReady = false) : HandshakeInv t := by
  obtain ⟨hbusy, hack⟩ := h.idle (holdsChar_eq_false hs hfree)
  exact ⟨fun hno => by simp [hst] at hno, fun _ => ⟨hready, hbusy, hack⟩⟩

theorem CoreTick.handshakeInv (hs : HandshakeInv s) : HandshakeInv t := by
  have hrep := h.rep
  generalize hq : t.rep = q at hrep
  cases hrep with
  | sendBanner hst => exact h.handshakeInv_of_send hs (by rw [hst]; rfl) (by rw [hq]; rfl) (by rw [hq]; rfl)
  | sendLine v hst => exact h.handshakeInv_of_send hs (by rw [hst]; rfl) (by rw [hq]; rfl) (by rw [hq]; rfl)
  | holdChar hst hack =>
    have hwait : ackWait s.rep.st = true := by obtain hst | hst := hst <;> rw [hst] <;> rfl
    exact h.handshakeInv_of_hold hs hwait hack (by rw [hq]; rfl) (by rw [hq]; rfl)
  | bannerMore hst hack | bannerLast hst hack | lineMore hst hack | lineLast hst hack =>
    exact h.handshakeInv_of_rest hs (.inr hack) (by rw [hq]; rfl) (by rw [hq]; rfl)
  | bannerNext hst | startDrain hst | drainNothing hst | lineNext hst | recordNext hst | recordLast hst =>
    exact h.handshakeInv_of_rest hs (.inl (by rw [hst]; rfl)) (by rw [hq]; rfl) (by rw [hq]; rfl)
  | holdFull hst | delayRecord hst | stayDone hst =>
    have hfree : ackWait s.rep.st = false := by rw [hst]; rfl
    exact h.handshakeInv_of_rest hs (.inl hfree) (by rw [hq]; exact hfree) (by rw [hq]; rfl)
  | delayChar hst =>
    have hfree : ackWait s.rep.st = false := by obtain hst | hst := hst <;> rw [hst] <;> rfl
    exact h.handshakeInv_of_rest hs (.inl hfree) (by rw [hq]; exact hfree) (by rw [hq]; rfl)
  | unused hst =>
    have hfree : ackWait s.rep.st = false := ackWait_unused hst
    exact h.handshakeInv_of_rest hs (.inl hfree) (by rw [hq]; exact hfree) (by rw [hq]; exact (hs.2 hfree).1)

end

/-! ### The report registers: what the invariant asks of them in each state -/

theorem reportInv_banner {s : State} (hst : s.rep.st = St.sendInitialChar ∨ s.rep.st = St.initWaitAck) :
    ReportInv s ↔ s.rep.tmo = s.par.tFull ∧ s.rep.rp = 0 ∧ s.rep.cidx < s.par.bannerLen ∧ s.rep.dly = 0 := by
  obtain hst | hst := hst <;> simp +decide [ReportInv, hst, writePhase, readPhase] <;> omega

theorem reportInv_initialWait {s : State} (hst : s.rep.st = St.initialWait) :
    ReportInv s ↔ s.rep.tmo = s.par.tFull ∧ s.rep.rp = 0 ∧ s.rep.cidx < s.par.bannerLen ∧ s.rep.dly < s.par.dChar := by
  simp +decide [ReportInv, hst, writePhase, readPhase]
  omega

theorem reportInv_waitFull {s : State} (hst : s.rep.st = St.waitFull) :
    ReportInv s ↔ s.rep.tmo ≤ s.par.tFull ∧ s.rep.rp = 0 ∧ s.rep.cidx = 0 ∧ s.rep.dly = 0 := by
  simp +decide [ReportInv, hst, writePhase, readPhase]

theorem reportInv_sendChar {s : State} (hst : s.rep.st = St.sendChar) :
    ReportInv s ↔ s.rep.tmo ≤ s.par.tFull ∧ s.rep.cidx < recLen s.par ∧
      (s.rep.rp < s.log.wp ∨ (s.log.wp = 0 ∧ s.rep.rp = 0 ∧ s.rep.cidx = 0)) ∧ s.rep.dly = 0 := by
  simp +decide [ReportInv, hst, writePhase, readPhase]

theorem reportInv_waitAck {s : State} (hst : s.rep.st = St.waitAck) :
    ReportInv s ↔ s.rep.tmo ≤ s.par.tFull ∧ s.rep.cidx < recLen s.par ∧ s.rep.rp < s.log.wp ∧ s.rep.dly = 0 := by
  simp +decide [ReportInv, hst, writePhase, readPhase]

theorem reportInv_wait {s : State} (hst : s.rep.st = St.wait) :
    ReportInv s ↔ s.rep.tmo ≤ s.par.tFull ∧ s.rep.cidx < recLen s.par ∧ s.rep.rp < s.log.wp ∧
      s.rep.dly < s.par.dChar := by
  simp +decide [ReportInv, hst, writePhase, readPhase]

theorem reportInv_actualDelay {s : State} (hst : s.rep.st = St.actualDelay) :
    ReportInv s ↔ s.rep.tmo ≤ s.par.tFull ∧ s.rep.cidx = 0 ∧ s.rep.rp < s.log.wp ∧ s.rep.dly < s.par.dRec := by
  simp +decide [ReportInv, hst, writePhase, readPhase]

theorem reportInv_done {s : State} (hst : s.rep.st = St.done) :
    ReportInv s ↔ s.rep.tmo ≤ s.par.tFull ∧ s.rep.cidx = 0 ∧ s.rep.rp = s.log.wp - 1 ∧ s.rep.dly = 0 := by
  simp +decide [ReportInv, hst, writePhase, readPhase]
  omega

theorem CoreTick.reportInv {s t : State} (h : CoreTick s t) (hs : ReportInv s) : ReportInv t := by
  have hrep := h.rep
  have hpar : t.par = s.par := congrArg Config.params h.cfg
  have hlog (hst : readPhase s.rep.st = true) : t.log.wp = s.log.wp := congrArg LogRegs.wp (h.log_of_readPhase hst)
  obtain ⟨-, hdChar, hdRec, -⟩ : 1 ≤ s.par.cap ∧ 1 ≤ s.par.dChar ∧ 1 ≤ s.par.dRec ∧ _ := Config.bounds s.cfg
  have hrecLen : 1 ≤ recLen s.par := by unfold recLen; omega
  generalize hq : t.rep = q at hrep
  cases hrep with
  | sendBanner hst =>
    have hinv := (reportInv_banner (.inl hst)).1 hs
    rw [reportInv_banner (.inr (by rw [hq]; rfl)), hq, hpar]
    exact hinv
  | holdChar hst hack =>
    obtain hst | hst := hst
    · have hinv := (reportInv_banner (.inr hst)).1 hs
      rw [reportInv_banner (.inr (by rw [hq]; exact hst)), hq, hpar]
      exact hinv
    · have hinv := (reportInv_waitAck hst).1 hs
      rw [reportInv_waitAck (by rw [hq]; exact hst), hq, hpar, hlog (by rw [hst]; rfl)]
      exact hinv
  | bannerMore hst hack hcidx =>
    have hinv := (reportInv_banner (.inr hst)).1 hs
    rw [reportInv_initialWait (by rw [hq]), hq, hpar]
    simp only [quiet_tmo, quiet_rp, quiet_dly]
    omega
  | bannerLast hst hack hcidx =>
    have hinv := (reportInv_banner (.inr hst)).1 hs
    rw [reportInv_waitFull (by rw [hq]), hq, hpar]
    simp only [quiet_tmo, quiet_rp, quiet_dly, true_and]
    omega
  | delayChar hst hdly =>
    obtain hst | hst := hst
    · have hinv := (reportInv_initialWait hst).1 hs
      rw [reportInv_initialWait (by rw [hq]; exact hst), hq, hpar]
      simp only [quiet_tmo, quiet_rp, quiet_cidx]
      omega
    · have hinv := (reportInv_wait hst).1 hs
      rw [reportInv_wait (by rw [hq]; exact hst), hq, hpar, hlog (by rw [hst]; rfl)]
      simp only [quiet_tmo, quiet_rp, quiet_cidx]
      omega
  | bannerNext hst hdly =>
    have hinv := (reportInv_initialWait hst).1 hs
    rw [reportInv_banner (.inl (by rw [hq])), hq, hpar]
    simp only [quiet_tmo, quiet_rp, quiet_cidx, and_true]
    omega
  | holdFull hst hend =>
    have hinv := (reportInv_waitFull hst).1 hs
    rw [reportInv_waitFull (by rw [hq]; exact hst), hq, hpar]
    simp only [quiet_rp, quiet_cidx, quiet_dly]
    omega
  | startDrain hst hend =>
    have hinv := (reportInv_waitFull hst).1 hs
    rw [reportInv_sendChar (by rw [hq]), hq, hpar]
    simp only [quiet_tmo, quiet_rp, quiet_cidx, quiet_dly]
    omega
  | drainNothing hst hwp =>
    have hinv := (reportInv_sendChar hst).1 hs
    rw [reportInv_done (by rw [hq]), hq, hpar, hlog (by rw [hst]; rfl)]
    simp only [quiet_tmo, quiet_rp, quiet_cidx, quiet_dly]
    omega
  | sendLine v hst hwp hread =>
    have hinv := (reportInv_sendChar hst).1 hs
    rw [reportInv_waitAck (by rw [hq]; rfl), hq, hpar, hlog (by rw [hst]; rfl)]
    simp only [send_tmo, send_rp, send_cidx, send_dly]
    omega
  | lineMore hst hack hcidx =>
    have hinv := (reportInv_waitAck hst).1 hs
    rw [reportInv_wait (by rw [hq]), hq, hpar, hlog (by rw [hst]; rfl)]
    simp only [quiet_tmo, quiet_rp, quiet_dly]
    omega
  | lineLast hst hack hcidx =>
    have hinv := (reportInv_waitAck hst).1 hs
    rw [reportInv_actualDelay (by rw [hq]), hq, hpar, hlog (by rw [hst]; rfl)]
    simp only [quiet_tmo, quiet_rp, quiet_dly, true_and]
    omega
  | lineNext hst hdly =>
    have hinv := (reportInv_wait hst).1 hs
    rw [reportInv_sendChar (by rw [hq]), hq, hpar, hlog (by rw [hst]; rfl)]
    simp only [quiet_tmo, quiet_rp, quiet_cidx, and_true]
    omega
  | delayRecord hst hdly =>
    have hinv := (reportInv_actualDelay hst).1 hs
    rw [reportInv_actualDelay (by rw [hq]; exact hst), hq, hpar, hlog (by rw [hst]; rfl)]
    simp only [quiet_tmo, quiet_rp, quiet_cidx]
    omega
  | recordNext hst hdly hrp =>
    have hinv := (reportInv_actualDelay hst).1 hs
    rw [reportInv_sendChar (by rw [hq]), hq, hpar, hlog (by rw [hst]; rfl)]
    simp only [quiet_tmo, quiet_cidx, and_true]
    omega
  | recordLast hst hdly hrp =>
    have hinv := (reportInv_actualDelay hst).1 hs
    rw [reportInv_done (by rw [hq]), hq, hpar, hlog (by rw [hst]; rfl)]
    simp only [quiet_tmo, quiet_rp, quiet_cidx, and_true]
    omega
  | stayDone hst =>
    have hinv := (reportInv_done hst).1 hs
    rw [reportInv_done (by rw [hq]; exact hst), hq, hpar, hlog (by rw [hst]; rfl)]
    exact hinv
  | unused hst =>
    obtain ⟨hnamed, -⟩ := hs
    omega

/-- Every tick keeps the core's invariant, with every transmitter that meets the contract. -/
theorem CoreTick.coreInv {s t : State} (h : CoreTick s t) (hs : CoreInv s) : CoreInv t := by
  obtain ⟨hlog, hhand, hrep⟩ := hs
  exact ⟨h.logInv hlog, h.handshakeInv hhand, h.reportInv hrep⟩

end Sys2Proof.Machine
end

section
/-!
PROOFS. The character stream (R65, R123, R147): the text that has been shown before a tick as a function of the core's
registers, what a tick adds to it, and O58.
-/

namespace Sys2Proof.Machine

open Host.Outcome

/-! ### The records of a log whose cells are the indices below `wp` -/

/-- The record read at an index is the one at that place of the list (R46, R107). -/
theorem Memory.read_eq_getElem? {m : Memory} {k n : Nat} (hkeys : m.map Prod.fst = List.range' k n) (i : Nat) :
    Memory.read m (k + i) = m[i]?.map Prod.snd := by
  induction m generalizing k n i with
  | nil => rfl
  | cons c m ih =>
    obtain ⟨j, u⟩ := c
    cases n with
    | zero => simp at hkeys
    | succ n =>
      obtain ⟨rfl, hrest⟩ := List.cons.inj hkeys
      cases i with
      | zero => simp [Memory.read]
      | succ i =>
        have hne : j + (i + 1) ≠ j := by omega
        rw [Memory.read, if_neg hne, show j + (i + 1) = j + 1 + i by omega]
        exact ih hrest i

theorem LogInv.getElem?_of_logRead {s : State} {i : Nat} {v : Record} (hs : LogInv s)
    (h : logRead s.par s.log.cells i = some v) : s.log.cells[i]? = some (i, v) := by
  obtain ⟨-, -, -, hkeys⟩ := hs
  have hread : Memory.read s.log.cells i = some v := by
    unfold logRead at h
    split at h
    · exact h
    · cases h
  have hcell := Memory.read_eq_getElem? (List.range_eq_range' ▸ hkeys) i
  rw [Nat.zero_add, hread] at hcell
  obtain ⟨⟨j, u⟩, hget, rfl⟩ := Option.map_eq_some_iff.1 hcell.symm
  have hkey : (List.range s.log.wp)[i]? = some j := by rw [← hkeys, List.getElem?_map, hget]; rfl
  obtain ⟨_, hij⟩ := List.getElem?_eq_some_iff.1 hkey
  rw [List.getElem_range] at hij
  rw [hget, ← hij]

theorem LogInv.length_cells {s : State} (hs : LogInv s) : s.log.cells.length = s.log.wp := by
  obtain ⟨-, -, -, hkeys⟩ := hs
  simpa using congrArg List.length hkeys

/-! ### The text shown before a tick -/

/-- The lines of the log, in index order. -/
def lineTexts (s : State) : List (List Byte) := s.log.cells.map fun c => recordLine s.par c.1 c.2

/-- The text that `cidx` indexes: the banner, or the current record's line. -/
def currentText (s : State) : List Byte :=
  if writePhase s.rep.st then s.par.banner else (lineTexts s)[s.rep.rp]?.getD []

/-- The texts before it. -/
def textsBefore (s : State) : List Byte :=
  if writePhase s.rep.st then [] else s.par.banner ++ ((lineTexts s).take s.rep.rp).flatten

/-- The states within the banner or a line; of the unused codes nothing is asked. -/
def inText (st : Nibble) : Bool := !(st == St.waitFull || st == St.actualDelay || st == St.done)

/-- How many characters of the current text have been shown before the tick: in an acknowledge wait the one at `cidx`
too, but for the tick that shows it (R147). -/
def charsShown (s : State) : Nat :=
  if ackWait s.rep.st = true ∧ s.rep.txReady = false then s.rep.cidx + 1 else s.rep.cidx

/-- And how many with that tick. -/
def charsDone (s : State) : Nat := if ackWait s.rep.st = true then s.rep.cidx + 1 else s.rep.cidx

/-- The characters shown before the tick, from power-on on. -/
def textShown (s : State) : List Byte :=
  if s.rep.st = St.done then reportText s
  else if inText s.rep.st then textsBefore s ++ (currentText s).take (charsShown s)
  else textsBefore s ++ currentText s

/-- The character offered is the one at `cidx` (R112, R113). -/
def CharInv (s : State) : Prop := s.rep.txReady = true → (currentText s)[s.rep.cidx]? = some s.rep.txData

theorem textShown_done {s : State} (hst : s.rep.st = St.done) : textShown s = reportText s := if_pos hst

theorem textShown_inText {s : State} (hst : inText s.rep.st = true) :
    textShown s = textsBefore s ++ (currentText s).take (charsShown s) := by
  have hne : s.rep.st ≠ St.done := fun hdone => by simp [hdone, inText] at hst
  rw [textShown, if_neg hne, if_pos hst]

theorem textShown_whole {s : State} (hst : s.rep.st = St.waitFull ∨ s.rep.st = St.actualDelay) :
    textShown s = textsBefore s ++ currentText s := by
  obtain hst | hst := hst <;> rw [textShown, hst] <;> rfl

/-! ### The current text -/

theorem currentText_of_writePhase {s : State} (h : writePhase s.rep.st = true) : currentText s = s.par.banner :=
  if_pos h

theorem textsBefore_of_writePhase {s : State} (h : writePhase s.rep.st = true) : textsBefore s = [] :=
  if_pos h

theorem currentText_of_readPhase {s : State} (h : readPhase s.rep.st = true) :
    currentText s = (lineTexts s)[s.rep.rp]?.getD [] :=
  if_neg (by simpa [readPhase] using h)

theorem textsBefore_of_readPhase {s : State} (h : readPhase s.rep.st = true) :
    textsBefore s = s.par.banner ++ ((lineTexts s).take s.rep.rp).flatten :=
  if_neg (by simpa [readPhase] using h)

/-- The banner and the lines up to the current one's end. -/
theorem textsBefore_append_currentText {s : State} (h : readPhase s.rep.st = true) :
    textsBefore s ++ currentText s = s.par.banner ++ ((lineTexts s).take (s.rep.rp + 1)).flatten := by
  rw [textsBefore_of_readPhase h, currentText_of_readPhase h, List.take_add_one, List.flatten_append,
    List.append_assoc]
  cases (lineTexts s)[s.rep.rp]? <;> simp

theorem lineTexts_length {s : State} (hs : LogInv s) : (lineTexts s).length = s.log.wp := by
  rw [lineTexts, List.length_map, hs.length_cells]

/-- The line of a record of the log has `REC_LEN` characters (R62). -/
theorem currentText_length {s : State} (hs : LogInv s) (h : readPhase s.rep.st = true) (hrp : s.rep.rp < s.log.wp) :
    (currentText s).length = recLen s.par := by
  have hlt : s.rep.rp < s.log.cells.length := hrp.trans_eq hs.length_cells.symm
  rw [currentText_of_readPhase h, lineTexts, List.getElem?_map, List.getElem?_eq_getElem hlt]
  exact recordLine_length _ _ _

/-- In the read phase the log stays, and so do its lines (R101). -/
theorem CoreTick.lineTexts_eq {s t : State} (h : CoreTick s t) (hst : readPhase s.rep.st = true) :
    lineTexts t = lineTexts s := by
  have hpar : t.par = s.par := congrArg Config.params h.cfg
  rw [lineTexts, lineTexts, h.log_of_readPhase hst, hpar]

/-- A tick that keeps the phase and the record pointer keeps the texts. -/
theorem CoreTick.texts_eq {s t : State} (h : CoreTick s t) (hphase : writePhase t.rep.st = writePhase s.rep.st)
    (hrp : t.rep.rp = s.rep.rp) : textsBefore t = textsBefore s ∧ currentText t = currentText s := by
  have hpar : t.par = s.par := congrArg Config.params h.cfg
  unfold textsBefore currentText
  rw [hphase, hrp, hpar]
  cases hw : writePhase s.rep.st with
  | true => exact ⟨rfl, rfl⟩
  | false => rw [h.lineTexts_eq (by rw [readPhase, hw]; rfl)]; exact ⟨rfl, rfl⟩

/-! ### The characters of the current text -/

theorem charShown_of_not_ready {s : State} (h : s.rep.txReady = false) : charShown s = none := by
  simp [charShown, h]

/-- Outside the acknowledge waits no character is shown (R111). -/
theorem charShown_of_rest {s : State} (hs : HandshakeInv s) (hst : ackWait s.rep.st = false) : charShown s = none :=
  charShown_of_not_ready (hs.2 hst).1

/-- The tick with `tx_ready` = 1 shows the character at `cidx`, and no other tick shows one. -/
theorem take_charsShown {s : State} (hs : HandshakeInv s) (hchar : CharInv s) :
    (currentText s).take (charsShown s) ++ (charShown s).toList = (currentText s).take (charsDone s) := by
  cases hst : ackWait s.rep.st with
  | false => simp [charsShown, charsDone, charShown_of_rest hs hst, hst]
  | true =>
    cases hready : s.rep.txReady with
    | true => simp [charsShown, charsDone, charShown, hst, hready, List.take_add_one, hchar hready]
    | false => simp [charsShown, charsDone, charShown, hst, hready]

/-! ### What a tick adds to the text -/

section
variable {s t : State} (h : CoreTick s t) (hphase : writePhase t.rep.st = writePhase s.rep.st)
  (hrp : t.rep.rp = s.rep.rp)
include h hphase hrp

/-- A tick within a text shows the character it counts. -/
theorem CoreTick.shows_inText (hs : HandshakeInv s) (hchar : CharInv s) (hst : inText s.rep.st = true)
    (htst : inText t.rep.st = true) (hdone : charsShown t = charsDone s) :
    textShown t = textShown s ++ (charShown s).toList := by
  obtain ⟨hbefore, hcurrent⟩ := h.texts_eq hphase hrp
  rw [textShown_inText htst, textShown_inText hst, hbefore, hcurrent, hdone, List.append_assoc,
    take_charsShown hs hchar]

/-- The tick that ends a text has counted all of it. -/
theorem CoreTick.shows_last (hs : HandshakeInv s) (hchar : CharInv s) (hst : inText s.rep.st = true)
    (htst : t.rep.st = St.waitFull ∨ t.rep.st = St.actualDelay) (hdone : (currentText s).length = charsDone s) :
    textShown t = textShown s ++ (charShown s).toList := by
  obtain ⟨hbefore, hcurrent⟩ := h.texts_eq hphase hrp
  rw [textShown_whole htst, textShown_inText hst, hbefore, hcurrent, List.append_assoc,
    take_charsShown hs hchar, ← hdone, List.take_length]

/-- A tick after a text shows nothing. -/
theorem CoreTick.shows_whole (hs : HandshakeInv s) (hst : s.rep.st = St.waitFull ∨ s.rep.st = St.actualDelay)
    (htst : t.rep.st = St.waitFull ∨ t.rep.st = St.actualDelay) :
    textShown t = textShown s ++ (charShown s).toList := by
  obtain ⟨hbefore, hcurrent⟩ := h.texts_eq hphase hrp
  have hfree : ackWait s.rep.st = false := by obtain hst | hst := hst <;> rw [hst] <;> rfl
  rw [textShown_whole htst, textShown_whole hst, hbefore, hcurrent, charShown_of_rest hs hfree]
  exact (List.append_nil _).symm

end

/-- A tick of the read phase that ends in `done` has the banner and every line shown. -/
theorem CoreTick.textShown_at_done {s t : State} (h : CoreTick s t) (hst : readPhase s.rep.st = true)
    (htst : t.rep.st = St.done) : textShown t = s.par.banner ++ (lineTexts s).flatten := by
  have hpar : t.par = s.par := congrArg Config.params h.cfg
  rw [textShown_done htst, ← h.lineTexts_eq hst, ← hpar]
  rfl

/-- A tick that ends in `send_char` at the first character has the banner and the lines before the current one shown. -/
theorem CoreTick.textShown_at_sendChar {s t : State} (h : CoreTick s t) (htst : t.rep.st = St.sendChar)
    (hcidx : t.rep.cidx = 0) :
    textShown t = s.par.banner ++ ((lineTexts t).take t.rep.rp).flatten := by
  have hpar : t.par = s.par := congrArg Config.params h.cfg
  have hnone : charsShown t = 0 := by simp +decide [charsShown, htst, hcidx]
  rw [textShown_inText (by rw [htst]; rfl), textsBefore_of_readPhase (by rw [htst]; rfl), hnone, hpar,
    List.take_zero, List.append_nil]

/-- The main step: a tick adds the character that it shows, in every branch of the report machine. -/
theorem CoreTick.shows {s t : State} (h : CoreTick s t) (hinv : CoreInv s) (hchar : CharInv s) :
    textShown t = textShown s ++ (charShown s).toList := by
  obtain ⟨hlog, hhand, hreport⟩ := hinv
  have hrep := h.rep
  generalize hq : t.rep = q at hrep
  cases hrep with
  | sendBanner hst | bannerMore hst | bannerNext hst | sendLine _ hst | lineMore hst | lineNext hst =>
    exact h.shows_inText (by rw [hq, hst]; rfl) (by rw [hq]; rfl) hhand hchar (by rw [hst]; rfl) (by rw [hq]; rfl)
      (by simp +decide [charsShown, charsDone, hq, hst])
  | holdChar hst | delayChar hst =>
    obtain hst | hst := hst <;>
      exact h.shows_inText (by rw [hq]; rfl) (by rw [hq]; rfl) hhand hchar (by rw [hst]; rfl)
        (by rw [hq, quiet_st, hst]; rfl) (by simp +decide [charsShown, charsDone, hq, hst])
  | bannerLast hst hack hcidx =>
    obtain ⟨-, -, -, hlen, -⟩ := Config.bounds s.cfg
    have hdone : (currentText s).length = charsDone s := by
      rw [currentText_of_writePhase (by rw [hst]; rfl), charsDone, hst, hcidx]
      exact (Nat.sub_add_cancel hlen).symm
    exact h.shows_last (by rw [hq, hst]; rfl) (by rw [hq]; rfl) hhand hchar (by rw [hst]; rfl)
      (.inl (by rw [hq])) hdone
  | lineLast hst hack hcidx =>
    obtain ⟨-, -, hrp, -⟩ := (reportInv_waitAck hst).1 hreport
    have hdone : (currentText s).length = charsDone s := by
      rw [currentText_length hlog (by rw [hst]; rfl) hrp, charsDone, hst, hcidx]
      exact (Nat.sub_add_cancel (Nat.le_add_left 1 _)).symm
    exact h.shows_last (by rw [hq, hst]; rfl) (by rw [hq]; rfl) hhand hchar (by rw [hst]; rfl)
      (.inr (by rw [hq])) hdone
  | holdFull hst =>
    exact h.shows_whole (by rw [hq]; rfl) (by rw [hq]; rfl) hhand (.inl hst) (.inl (by rw [hq]; exact hst))
  | delayRecord hst =>
    exact h.shows_whole (by rw [hq]; rfl) (by rw [hq]; rfl) hhand (.inr hst) (.inr (by rw [hq]; exact hst))
  | startDrain hst =>
    obtain ⟨-, hrp, hcidx, -⟩ := (reportInv_waitFull hst).1 hreport
    rw [h.textShown_at_sendChar (by rw [hq]) (by rw [hq]; exact hcidx), textShown_whole (.inl hst),
      textsBefore_of_writePhase (by rw [hst]; rfl), currentText_of_writePhase (by rw [hst]; rfl),
      charShown_of_rest hhand (by rw [hst]; rfl), hq, quiet_rp, hrp]
    rfl
  | drainNothing hst hwp =>
    have hnil : lineTexts s = [] := List.eq_nil_of_length_eq_zero ((lineTexts_length hlog).trans hwp)
    have hread : readPhase s.rep.st = true := by rw [hst]; rfl
    rw [h.textShown_at_done hread (by rw [hq]), textShown_inText (by rw [hst]; rfl),
      textsBefore_of_readPhase hread, currentText_of_readPhase hread, charShown_of_rest hhand (by rw [hst]; rfl), hnil]
    simp
  | recordNext hst hdly hrp =>
    have hread : readPhase s.rep.st = true := by rw [hst]; rfl
    obtain ⟨-, hcidx, -⟩ := (reportInv_actualDelay hst).1 hreport
    rw [h.textShown_at_sendChar (by rw [hq]) (by rw [hq]; exact hcidx), h.lineTexts_eq hread,
      textShown_whole (.inr hst), textsBefore_append_currentText hread,
      charShown_of_rest hhand (by rw [hst]; rfl), hq]
    exact (List.append_nil _).symm
  | recordLast hst hdly hrp =>
    have hread : readPhase s.rep.st = true := by rw [hst]; rfl
    have hall : (lineTexts s).length ≤ s.rep.rp + 1 := (lineTexts_length hlog).trans_le (Nat.le_of_not_lt hrp)
    rw [h.textShown_at_done hread (by rw [hq]), textShown_whole (.inr hst), textsBefore_append_currentText hread,
      List.take_of_length_le hall, charShown_of_rest hhand (by rw [hst]; rfl)]
    exact (List.append_nil _).symm
  | stayDone hst =>
    rw [h.textShown_at_done (by rw [hst]; rfl) (by rw [hq]; exact hst), textShown_done hst,
      charShown_of_rest hhand (by rw [hst]; rfl)]
    exact (List.append_nil _).symm
  | unused hst =>
    obtain ⟨hnamed, -⟩ := hreport
    omega

/-- The character that a send offers is the one at `cidx`. -/
theorem CoreTick.charInv {s t : State} (h : CoreTick s t) (hinv : CoreInv s) : CharInv t := by
  obtain ⟨hlog, hhand, hreport⟩ := hinv
  have hrep := h.rep
  intro hready
  generalize hq : t.rep = q at hrep
  cases hrep with
  | sendBanner hst =>
    obtain ⟨-, -, hcidx, -⟩ := (reportInv_banner (.inl hst)).1 hreport
    obtain ⟨-, hcurrent⟩ := h.texts_eq (by rw [hq, hst]; rfl) (by rw [hq]; rfl)
    rw [hcurrent, currentText_of_writePhase (by rw [hst]; rfl), send_cidx, send_txData, bannerChar,
      List.getElem?_eq_getElem hcidx]
    rfl
  | sendLine v hst hwp hread =>
    obtain ⟨-, hcidx, -⟩ := (reportInv_sendChar hst).1 hreport
    obtain ⟨-, hcurrent⟩ := h.texts_eq (by rw [hq, hst]; rfl) (by rw [hq]; rfl)
    have hline : currentText s = recordLine s.par s.rep.rp v := by
      rw [currentText_of_readPhase (by rw [hst]; rfl), lineTexts, List.getElem?_map,
        hlog.getElem?_of_logRead hread]
      rfl
    have hlt : s.rep.cidx < (recordLine s.par s.rep.rp v).length := hcidx.trans_eq (recordLine_length _ _ _).symm
    rw [hcurrent, hline, send_cidx, send_txData, lineChar, List.getElem?_eq_getElem hlt]
    rfl
  | unused hst =>
    obtain ⟨hnamed, -⟩ := hreport
    omega
  | _ =>
    rw [hq] at hready
    cases hready

/-! ### Runs -/

/-- A run shows what its last tick has over its first. -/
theorem textShown_run {n : Nat} {s t : State} (hinv : CoreInv s) (hchar : CharInv s) (hrun : run n s = next t) :
    textShown s ++ stream n s = textShown t := by
  induction n generalizing s with
  | zero =>
    cases hrun
    exact List.append_nil _
  | succ n ih =>
    obtain ⟨u, hu, hrest⟩ := andThen_eq_next.1 hrun
    have h := coreTick_of_step hu
    rw [stream, hu, ← List.append_assoc, ← h.shows hinv hchar]
    exact ih (h.coreInv hinv) (h.charInv hinv) hrest

theorem textShown_runAbstract {ws : List Bool} {s t : State} (hinv : CoreInv s) (hchar : CharInv s)
    (hrun : runAbstract ws s = next t) : textShown s ++ streamAbstract ws s = textShown t := by
  induction ws generalizing s with
  | nil =>
    cases hrun
    exact List.append_nil _
  | cons w ws ih =>
    obtain ⟨u, hu, hrest⟩ := andThen_eq_next.1 hrun
    have h := coreTick_of_stepAbstract hu
    rw [streamAbstract, hu, ← List.append_assoc, ← h.shows hinv hchar]
    exact ih (h.coreInv hinv) (h.charInv hinv) hrest

theorem charInv_init (c : Config) (ins : List InputWord) : CharInv (State.init c ins) := fun h => Bool.noConfusion h

theorem textShown_init (c : Config) (ins : List InputWord) : textShown (State.init c ins) = [] := rfl

/-- Settles O58: at power-on nothing has been shown, every tick adds the character that it shows, and in `done` the text
shown is the banner and the lines. -/
theorem streamIsTheBannerAndTheLog : Obligations.StreamIsTheBannerAndTheLog := by
  refine ⟨fun c ins ws t hrun hst => ?_, fun c ins n t hrun hst => ?_⟩
  · have h := textShown_runAbstract (inv_init c ins).1 (charInv_init c ins) hrun
    rwa [textShown_init, List.nil_append, textShown_done hst] at h
  · have h := textShown_run (inv_init c ins).1 (charInv_init c ins) hrun
    rwa [textShown_init, List.nil_append, textShown_done hst] at h

end Sys2Proof.Machine
end

section
/-!
PROOFS. The edge detector (R70, R71): the truth table of the two strobes, their width, and O19.
-/

namespace Sys2Proof.Machine

open Host.Outcome

/-! ### The truth table -/

theorem fell_eq_true_iff {s : State} : fell s = true ↔ s.rdPrev = true ∧ rd s = false := by
  rw [fell, Bool.and_eq_true, Bool.not_eq_true']

theorem rose_eq_true_iff {s : State} : rose s = true ↔ s.rdPrev = false ∧ rd s = true := by
  rw [rose, Bool.and_eq_true, Bool.not_eq_true']

/-- A falling edge needs a previous sample of 1, so a tick after a low sample has none. -/
theorem fell_of_rdPrev_false {s : State} (h : s.rdPrev = false) : fell s = false := by
  rw [fell, h, Bool.false_and]

/-- A rising edge needs a previous sample of 0, so a tick after a high sample has none. -/
theorem rose_of_rdPrev_true {s : State} (h : s.rdPrev = true) : rose s = false := by
  rw [rose, h, Bool.not_true, Bool.false_and]

/-- The two strobes need opposite samples. -/
theorem rose_of_fell {s : State} (h : fell s = true) : rose s = false :=
  rose_of_rdPrev_true (fell_eq_true_iff.1 h).1

/-! ### The width -/

theorem step_rdPrev {s t : State} (h : step s = next t) : t.rdPrev = rd s := by
  obtain ⟨-, hprev, -⟩ := step_bus h
  exact hprev

/-- The sample that gives a falling edge is the next tick's previous sample, so that tick gives none. -/
theorem step_fell_of_fell {s t : State} (h : step s = next t) (hfell : fell s = true) : fell t = false :=
  fell_of_rdPrev_false ((step_rdPrev h).trans (fell_eq_true_iff.1 hfell).2)

theorem step_rose_of_rose {s t : State} (h : step s = next t) (hrose : rose s = true) : rose t = false :=
  rose_of_rdPrev_true ((step_rdPrev h).trans (rose_eq_true_iff.1 hrose).2)

/-- At power-on the previous sample is 0 (R27), so tick 0 has no falling edge. -/
theorem fell_init (c : Config) (ins : List InputWord) : fell (State.init c ins) = false :=
  fell_of_rdPrev_false rfl

/-- Settles O19, from the truth table and the sample that every tick keeps for the next. -/
theorem edgeStrobesAreOneTickWide : Obligations.EdgeStrobesAreOneTickWide := by
  refine ⟨fun s => ⟨fell_eq_true_iff, rose_eq_true_iff, ?_⟩,
    fun s t h => ⟨step_rdPrev h, step_fell_of_fell h, step_rose_of_rose h⟩, fell_init⟩
  rintro ⟨hfell, hrose⟩
  exact Bool.false_ne_true ((rose_of_fell hfell).symm.trans hrose)

end Sys2Proof.Machine
end

section
/-!
PROOFS. The hex encoder (R74, R78): how many digits a field has, which nibble each digit shows, and O49 and O50.
-/

namespace Sys2Proof.Machine

/-- `digitCount L` is `ceil(L/4)`: room for the `L` bits, and less than one digit to spare (R74). -/
theorem four_mul_digitCount_bounds (L : Nat) : L ≤ 4 * digitCount L ∧ 4 * digitCount L < L + 4 := by
  unfold digitCount
  omega

/-- Of `n` digits, digit `k` from the front is that of the nibble `n-1-k` (R74). -/
theorem hexDigits_getElem? {n k : Nat} (v : Nat) (h : k < n) :
    (hexDigits n v)[k]? = some (hexDigit (v / 16 ^ (n - 1 - k) % 16)) := by
  induction n generalizing k with
  | zero => exact absurd h (Nat.not_lt_zero k)
  | succ n ih =>
    cases k with
    | zero => rfl
    | succ k =>
      have hnibble : n + 1 - 1 - (k + 1) = n - 1 - k := by omega
      rw [hexDigits, List.getElem?_cons_succ, ih (Nat.lt_of_succ_lt_succ h), hnibble]

/-- Settles O49: dividing by `16 ^ j` drops the `4 * j` bits below nibble `j`. -/
theorem hexIsMostSignificantNibbleFirst : Obligations.HexIsMostSignificantNibbleFirst := by
  intro v L k
  obtain ⟨hroom, htight⟩ := four_mul_digitCount_bounds L
  refine ⟨hex_length v L, hroom, htight, fun hk => ?_⟩
  rw [Nat.pow_mul]
  exact hexDigits_getElem? v hk

/-- Settles O50: the digits parse to the value modulo `16 ^ digitCount L`, which a value of `L` bits is below. -/
theorem hexRoundTrip : Obligations.HexRoundTrip := fun _ _ => parseHex_hex

end Sys2Proof.Machine
end

section
/-!
PROOFS. The address reconstructor (R80 to R84, R86): what the two latch writes do to each half, the one next address of
a tick by its latch enables, O20 to O23, and two latch phases over a run, O24.
-/

namespace Sys2Proof.Machine

open Host.Outcome

/-! ### The halves of the address -/

section
variable (a : Addr) (d : Half)

theorem setHigh_high : (setHigh a d).extractLsb' 16 16 = d := BitVec.extractLsb'_append_eq_left

theorem setHigh_low : (setHigh a d).extractLsb' 0 16 = a.extractLsb' 0 16 := BitVec.extractLsb'_append_eq_right

theorem setLow_high : (setLow a d).extractLsb' 16 16 = a.extractLsb' 16 16 := BitVec.extractLsb'_append_eq_left

theorem setLow_low : (setLow a d).extractLsb' 0 16 = d := BitVec.extractLsb'_append_eq_right

/-- Two halves as one number: the high one is scaled over the low one. -/
theorem toNat_append_half (h l : Half) : (h ++ l : Addr).toNat = h.toNat * 2 ^ 16 + l.toNat := by
  rw [BitVec.toNat_append, ← Nat.shiftLeft_add_eq_or_of_lt l.isLt, Nat.shiftLeft_eq]

theorem toNat_setHigh : (setHigh a d).toNat = d.toNat * 2 ^ 16 + a.toNat % 2 ^ 16 := by
  rw [setHigh, toNat_append_half, BitVec.extractLsb'_toNat, Nat.shiftRight_zero]

theorem toNat_setLow : (setLow a d).toNat = a.toNat / 2 ^ 16 * 2 ^ 16 + d.toNat := by
  have hhigh : a.toNat / 2 ^ 16 < 2 ^ 16 := by omega
  rw [setLow, toNat_append_half, BitVec.extractLsb'_toNat, Nat.shiftRight_eq_div_pow, Nat.mod_eq_of_lt hhigh]

end

/-- With the low half written first the two latch writes leave the same address (R86). -/
theorem setHigh_setLow (a : Addr) (h l : Half) : setHigh (setLow a l) h = h ++ l := by rw [setHigh, setLow_low]

/-! ### The latch row and the next address by the enables -/

section
variable {s : State}

theorem latchRow_none (hp : aleP s = false) : latchRow s = .latchNone := by rw [latchRow_eq, hp]

theorem latchRow_high (hp : aleP s = true) (hs : aleS s = true) : latchRow s = .latchHi (adIn s) := by
  rw [latchRow_eq, hp, hs]

theorem latchRow_low (hp : aleP s = true) (hs : aleS s = false) : latchRow s = .latchLo (adIn s) := by
  rw [latchRow_eq, hp, hs]

/-- The address that the latch row of a tick writes over: the increment of a falling edge is applied first (R84). -/
def addrUnderLatch (s : State) : Addr := if fell s = true then advance s.addr else s.addr

theorem addrUnderLatch_of_not_fell (hfell : fell s = false) : addrUnderLatch s = s.addr := by
  rw [addrUnderLatch, if_neg (by rw [hfell]; decide)]

/-- The increment wraps at the address width (R83, D33). -/
theorem toNat_addrUnderLatch (s : State) :
    (addrUnderLatch s).toNat = if fell s = true then (s.addr.toNat + 2) % 2 ^ 32 else s.addr.toNat := by
  rw [addrUnderLatch, apply_ite BitVec.toNat, advance, BitVec.toNat_add]
  rfl

theorem addrNext_high (hp : aleP s = true) (hs : aleS s = true) :
    addrNext s = setHigh (addrUnderLatch s) (adIn s) := by
  simp only [addrNext, hp, hs, if_true, addrUnderLatch]

theorem addrNext_low (hp : aleP s = true) (hs : aleS s = false) :
    addrNext s = setLow (addrUnderLatch s) (adIn s) := by
  simp only [addrNext, hp, hs, if_true, if_false, Bool.false_eq_true, addrUnderLatch]

theorem addrNext_none (hp : aleP s = false) : addrNext s = addrUnderLatch s := addrNext_of_aleP_false hp

end

/-- Settles O20. -/
theorem latchHiWritesTheHighHalf : Obligations.LatchHiWritesTheHighHalf := by
  refine ⟨fun s => latchRow_high, fun d s => ⟨_, rfl, setHigh_high s.addr d, setHigh_low s.addr d, rfl⟩,
    fun s t h hp hs hfell => ?_⟩
  obtain ⟨haddr, -, -⟩ := step_bus h
  rw [haddr, addrNext_high hp hs, addrUnderLatch_of_not_fell hfell]
  exact ⟨setHigh_high _ _, setHigh_low _ _⟩

/-- Settles O21. -/
theorem latchLoWritesTheLowHalf : Obligations.LatchLoWritesTheLowHalf := by
  refine ⟨fun s => latchRow_low, fun d s => ⟨_, rfl, setLow_low s.addr d, setLow_high s.addr d, rfl⟩,
    fun s t h hp hs hfell => ?_⟩
  obtain ⟨haddr, -, -⟩ := step_bus h
  rw [haddr, addrNext_low hp hs, addrUnderLatch_of_not_fell hfell]
  exact ⟨setLow_low _ _, setLow_high _ _⟩

/-- Settles O22. -/
theorem latchNoneWritesNothing : Obligations.LatchNoneWritesNothing := by
  refine ⟨fun s => latchRow_none, fun s => rfl, fun s t h hp hfell => ?_⟩
  obtain ⟨haddr, -, -⟩ := step_bus h
  rw [haddr, addrNext_none hp, addrUnderLatch_of_not_fell hfell]

/-- Settles O23, by the latch row of the tick over the address after its increment. -/
theorem oneNextAddressPerTick : Obligations.OneNextAddressPerTick := by
  intro s t h
  obtain ⟨haddr, -, -⟩ := step_bus h
  rw [haddr, ← toNat_addrUnderLatch s]
  cases hp : aleP s with
  | false => rw [addrNext_none hp]; rfl
  | true =>
    cases hs : aleS s with
    | true => rw [addrNext_high hp hs, toNat_setHigh]; rfl
    | false => rw [addrNext_low hp hs, toNat_setLow]; rfl

/-! ### Two latch phases (R86) -/

/-- From one input word to the next the read strobe does not fall. -/
def NoFallBetween (a b : InputWord) : Prop := a.getLsbD 2 = true → b.getLsbD 2 = true

/-- No edge falls in a tick whose word does not drop the strobe of the word before it. -/
theorem fell_of_noFallBetween {s : State} {a b : InputWord} {rest : List InputWord} (hprev : s.rdPrev = a.getLsbD 2)
    (hin : s.inputs = b :: rest) (hab : NoFallBetween a b) : fell s = false := by
  rw [← Bool.not_eq_true, fell_eq_true_iff, hprev, rd, inputWord_cons hin]
  rintro ⟨ha, hb⟩
  exact Bool.false_ne_true (hb.symm.trans (hab ha))

/-- The ticks between the phases, with no latch write and no falling edge, keep the address up to the second phase, and
no edge falls in that one either (R82, R85). -/
theorem run_between_phases {a b : InputWord} {mid rest : List InputWord} {s t : State} (hprev : s.rdPrev = a.getLsbD 2)
    (hchain : List.IsChain NoFallBetween (a :: (mid ++ [b]))) (hmid : ∀ m ∈ mid, m.getLsbD 0 = false)
    (hin : s.inputs = mid ++ b :: rest) (hrun : run mid.length s = next t) :
    t.addr = s.addr ∧ t.inputs = b :: rest ∧ fell t = false := by
  induction mid generalizing a s with
  | nil =>
    cases hrun
    exact ⟨rfl, hin, fell_of_noFallBetween hprev hin (List.isChain_cons_cons.1 hchain).1⟩
  | cons m mid ih =>
    obtain ⟨u, hu, hrest⟩ := andThen_eq_next.1 hrun
    obtain ⟨huaddr, huprev, huin⟩ := step_bus hu
    obtain ⟨ham, hchain⟩ := List.isChain_cons_cons.1 hchain
    obtain ⟨hm, hmid⟩ := List.forall_mem_cons.1 hmid
    have haleP : aleP s = false := by rw [aleP, inputWord_cons hin, hm]
    have hkeep : u.addr = s.addr := by
      rw [huaddr, addrNext_none haleP, addrUnderLatch_of_not_fell (fell_of_noFallBetween hprev hin ham)]
    rw [← hkeep]
    exact ih (by rw [huprev, rd, inputWord_cons hin]) hchain hmid (by rw [huin, hin]; rfl) hrest

/-- A stretch from one phase to another ends in the second one's next address, taken in a state `v` with the address
that the first one left. -/
theorem run_two_phases {a b : InputWord} {mid rest : List InputWord} {s t : State}
    (hchain : List.IsChain NoFallBetween (a :: (mid ++ [b]))) (hmid : ∀ m ∈ mid, m.getLsbD 0 = false)
    (hin : s.inputs = a :: (mid ++ b :: rest)) (hrun : run (mid.length + 2) s = next t) :
    ∃ v, v.inputs = b :: rest ∧ addrUnderLatch v = addrNext s ∧ t.addr = addrNext v ∧ t.inputs = rest := by
  obtain ⟨u, hu, hrun⟩ := andThen_eq_next.1 hrun
  obtain ⟨huaddr, huprev, huin⟩ := step_bus hu
  rw [run_add mid.length 1] at hrun
  obtain ⟨v, hv, hlast⟩ := andThen_eq_next.1 hrun
  obtain ⟨w, hw, hend⟩ := andThen_eq_next.1 hlast
  cases hend
  obtain ⟨hwaddr, -, hwin⟩ := step_bus hw
  have huprev : u.rdPrev = a.getLsbD 2 := by rw [huprev, rd, inputWord_cons hin]
  obtain ⟨hvaddr, hvin, hfell⟩ := run_between_phases huprev hchain hmid (by rw [huin, hin]; rfl) hv
  exact ⟨v, hvin, by rw [addrUnderLatch_of_not_fell hfell, hvaddr, huaddr], hwaddr, by rw [hwin, hvin]; rfl⟩

/-- A tick whose word has these fields reads them. -/
theorem latch_inputs_of_wordFields {s : State} {d : Half} {w r aS aP : Bool} {rest : List InputWord}
    (hin : s.inputs = wordFields d w r aS aP :: rest) : aleP s = aP ∧ aleS s = aS ∧ adIn s = d := by
  have hs : { s with inputs := wordFields d w r aS aP :: rest } = s := by rw [← hin]
  rw [← hs]
  exact ⟨aleP_wordFields s d w r aS aP rest, aleS_wordFields s d w r aS aP rest, adIn_wordFields s d w r aS aP rest⟩

section
variable {s : State} {d : Half} {w r : Bool} {rest : List InputWord}

theorem addrNext_highPhase (hin : s.inputs = wordFields d w r true true :: rest) :
    addrNext s = setHigh (addrUnderLatch s) d := by
  obtain ⟨hp, hs, hd⟩ := latch_inputs_of_wordFields hin
  rw [addrNext_high hp hs, hd]

theorem addrNext_lowPhase (hin : s.inputs = wordFields d w r false true :: rest) :
    addrNext s = setLow (addrUnderLatch s) d := by
  obtain ⟨hp, hs, hd⟩ := latch_inputs_of_wordFields hin
  rw [addrNext_low hp hs, hd]

end

/-- Settles O24: the second phase writes its half over the address the first one left, so both halves are the
phases'. -/
theorem twoPhasesReconstructTheAddress : Obligations.TwoPhasesReconstructTheAddress := by
  intro s t h l w1 w2 mid rest wr1 rd1 wr2 rd2 hwords hmid hnofall hin hrun
  have hchain : List.IsChain NoFallBetween (w1 :: (mid ++ [w2])) := List.isChain_iff_getElem.2 fun i hi =>
    hnofall i _ _ (List.getElem?_eq_getElem (Nat.lt_of_succ_lt hi)) (List.getElem?_eq_getElem hi)
  rw [List.cons_append, List.append_assoc] at hin
  obtain ⟨v, hvin, hv, htaddr, htin⟩ := run_two_phases hchain hmid hin hrun
  refine ⟨?_, htin⟩
  obtain ⟨rfl, rfl⟩ | ⟨rfl, rfl⟩ := hwords
  · rw [htaddr, addrNext_lowPhase hvin, hv, addrNext_highPhase hin, setLow_setHigh]
  · rw [htaddr, addrNext_highPhase hvin, hv, addrNext_lowPhase hin, setHigh_setLow]

end Sys2Proof.Machine
end

section
/-!
PROOFS. The ROM and the bus output driver (R90, R91, R94): the strobe row and the bus of a tick by `rd`, O29 and O30,
and what the bus side reads, O10.
-/

namespace Sys2Proof.Machine

open Host.Outcome

/-! ### The strobe row and the bus by the read strobe -/

section
variable {s t : State}

theorem strobeRow_high (hrd : rd s = true) : strobeRow s = if s.rdPrev = true then .rdHold else .rdRise := by
  rw [strobeRow_eq, hrd]
  cases s.rdPrev <;> rfl

theorem strobeRow_low (hrd : rd s = false) : strobeRow s = if s.rdPrev = true then .rdFall else .rdIdle := by
  rw [strobeRow_eq, hrd]
  cases s.rdPrev <;> rfl

/-- The bus of a tick comes from the bus side's part of the commit. -/
theorem step_busDrive (h : step s = next t) : t.lines.bus = if rd s = true then romDrive s else .released := by
  obtain ⟨r, u, -, -, rfl⟩ := step_eq_next.1 h
  rfl

theorem step_busDrive_high (h : step s = next t) (hrd : rd s = true) :
    t.lines.bus = .driven (romWord s.cfg s.addr) := by
  rw [step_busDrive h, if_pos hrd, romDrive]

theorem step_busDrive_low (h : step s = next t) (hrd : rd s = false) : t.lines.bus = .released := by
  rw [step_busDrive h, hrd, if_neg Bool.false_ne_true]

end

/-- Settles O29: the driven word is the one that the ROM has at the index of the address, which R5 keeps inside the
image. -/
theorem strobeDrivesTheRomWord : Obligations.StrobeDrivesTheRomWord := by
  refine ⟨fun s => strobeRow_high, fun i s hi => ⟨_, romRead_romIndex s.cfg s.addr, ?_⟩,
    fun s t h hrd => ⟨_, romRead_romIndex s.cfg s.addr, step_busDrive_high h hrd⟩⟩
  obtain rfl | rfl := hi
  · rfl
  · rfl

/-- Settles O30. -/
theorem noStrobeReleasesTheBus : Obligations.NoStrobeReleasesTheBus := by
  refine ⟨fun s => strobeRow_low, fun s => ⟨_, rfl, rfl⟩, fun s => rfl, fun s t h hrd => ?_⟩
  rw [step_busDrive_low h hrd]
  exact ⟨rfl, rfl⟩

/-! ### What the bus side reads (R94, R146) -/

/-- The tick counter picks the word once the stimulus has ended. -/
theorem inputWord_congr {s s' : State} (hinputs : s'.inputs = s.inputs) (htick : s'.tick = s.tick) :
    inputWord s' = inputWord s := by
  rw [inputWord, inputWord, hinputs, htick]

/-- Settles O10: the next address, the next read sample and the bus drive are functions of the configuration, the input
word, the read sample and the address. -/
theorem busSideIgnoresLogReportAndTransmitter : Obligations.BusSideIgnoresLogReportAndTransmitter := by
  intro s s' t t' hcfg hinputs htick hprev haddr h h'
  have hword : inputWord s' = inputWord s := inputWord_congr hinputs htick
  have hrd : rd s' = rd s := by rw [rd, rd, hword]
  have haleP : aleP s' = aleP s := by rw [aleP, aleP, hword]
  have haleS : aleS s' = aleS s := by rw [aleS, aleS, hword]
  have hadIn : adIn s' = adIn s := by rw [adIn, adIn, hword]
  have hdrive : romDrive s' = romDrive s := by rw [romDrive, romDrive, hcfg, haddr]
  obtain ⟨htaddr, htprev, -⟩ := step_bus h
  obtain ⟨htaddr', htprev', -⟩ := step_bus h'
  refine ⟨?_, ?_, ?_⟩
  · rw [htaddr', htaddr, addrNext_congr haddr hprev hrd haleP fun _ => ⟨haleS, hadIn⟩]
  · rw [htprev', htprev, hrd]
  · rw [step_busDrive h', step_busDrive h, hrd, hdrive]

end Sys2Proof.Machine
end

section
/-!
PROOFS. The log buffer over one tick (R100 to R107): what the log step does in each of its cases, the row of `GW` and
the tick that take it, O31 to O35, and what a tick can do to the log's registers, O36 and O37.
-/

namespace Sys2Proof.Machine

open Host.Outcome

/-! ### The cases of the log step -/

section
variable {s : State}

/-- R102 -/
theorem logStep_skip (hphase : writePhase s.rep.st = true) (hskip : 0 < s.log.skip) : logStep s = skipped s := by
  rw [logStep, if_pos hphase, if_pos hskip]

/-- R103 -/
theorem logStep_append (hphase : writePhase s.rep.st = true) (hskip : s.log.skip = 0) (hroom : s.log.wp < s.par.cap) :
    logStep s = appended s := by
  rw [logStep, if_pos hphase, hskip, if_neg (Nat.lt_irrefl 0), if_pos hroom]

/-- R104 -/
theorem logStep_drop (hskip : s.log.skip = 0) (hfull : s.par.cap ≤ s.log.wp) : logStep s = s.log := by
  rw [logStep, hskip, if_neg (Nat.lt_irrefl 0), if_neg (Nat.not_lt.2 hfull), ite_self]

theorem appended_wp (hroom : s.log.wp < s.par.cap) : (appended s).wp = s.log.wp + 1 := by
  rw [appended, if_pos hroom]

end

/-- On a falling edge the row that `GW` selects takes the log step (R100). -/
theorem exec_decodeLog_of_fell (s : State) :
    exec (decodeLog true (writePhase s.rep.st) (skipNz s) (room s)) s = next { s with log := logStep s } := by
  cases hphase : writePhase s.rep.st with
  | false => rw [logStep_of_readPhase hphase]; rfl
  | true =>
    by_cases hskip : 0 < s.log.skip
    · rw [logStep_skip hphase hskip, skipNz, decide_eq_true hskip]; rfl
    · have hskip0 : s.log.skip = 0 := Nat.eq_zero_of_not_pos hskip
      rw [skipNz, decide_eq_false hskip]
      by_cases hroom : s.log.wp < s.par.cap
      · rw [logStep_append hphase hskip0 hroom, room, decide_eq_true hroom]; rfl
      · rw [logStep_drop hskip0 (Nat.le_of_not_lt hroom), room, decide_eq_false hroom]; rfl

theorem strobeRow_eq_rdFall_iff (s : State) : strobeRow s = .rdFall ↔ fell s = true := by
  rw [strobeRow_eq, fell]
  cases s.rdPrev <;> cases rd s <;> decide

/-- Settles O31: RD_FALL's log is the log step, and so is that of the row of `GW`. -/
theorem capturedReadDoesThreeThings : Obligations.CapturedReadDoesThreeThings :=
  ⟨strobeRow_eq_rdFall_iff, fun s =>
    ⟨_, _, rfl, BitVec.toNat_add s.addr 2#32, rfl, exec_decodeLog_of_fell s, rfl, logStep_read s, rfl⟩⟩

/-! ### The log and the address of a tick with a falling edge -/

theorem CoreTick.par_eq {s t : State} (h : CoreTick s t) : t.par = s.par := congrArg Config.params h.cfg

theorem CoreTick.log_of_fell {s t : State} (h : CoreTick s t) (hfell : fell s = true) : t.log = logStep s := by
  rw [h.log, if_pos hfell]

/-- Without a latch write a falling edge advances the address (R83, R100). -/
theorem step_addr_of_fell {s t : State} (h : step s = next t) (hfell : fell s = true) (haleP : aleP s = false) :
    t.addr = s.addr + 2#32 := by
  obtain ⟨haddr, -, -⟩ := step_bus h
  rw [haddr, addrNext_none haleP, addrUnderLatch, if_pos hfell, advance]

/-- Settles O32: the log step tests `skip` before `wp`, so a full buffer counts down too. -/
theorem captureSkipOnlyCountsDown : Obligations.CaptureSkipOnlyCountsDown := by
  refine ⟨fun s hskip => ⟨_, rfl, Nat.sub_add_cancel hskip, rfl⟩, fun s t h hfell hphase hskip => ?_⟩
  rw [(coreTick_of_step h).log_of_fell hfell, logStep_skip hphase hskip]
  exact ⟨Nat.sub_add_cancel hskip, rfl, rfl⟩

/-- Settles O33: the pair at `wp` packs the address and the ROM's word, and gives both back. -/
theorem captureAppendRecordsThePair : Obligations.CaptureAppendRecordsThePair := by
  refine ⟨fun s hroom => ?_, fun s t h hfell hphase hskip hroom => ?_⟩
  · refine ⟨_, captured s, rfl, appended_wp hroom, appended_skip s, appended_read_wp hroom,
      recAddr_record s.addr _, ?_, appended_read s, rfl⟩
    exact (romRead_romIndex s.cfg s.addr).trans (congrArg some (recData_record s.addr _).symm)
  · have htick := coreTick_of_step h
    rw [htick.log_of_fell hfell, logStep_append hphase hskip hroom, htick.par_eq]
    exact ⟨appended_wp hroom, (appended_skip s).trans hskip, appended_read_wp hroom, appended_read s⟩

/-- Settles O34. -/
theorem droppedCapturesWriteNothing : Obligations.DroppedCapturesWriteNothing := by
  refine ⟨fun s => ⟨rfl, rfl, rfl⟩,
    fun s t h hfell hphase hskip hfull haleP => ⟨?_, step_addr_of_fell h hfell haleP⟩⟩
  rw [(coreTick_of_step h).log_of_fell hfell, logStep_drop hskip hfull.ge]

/-- Settles O35. -/
theorem readPhaseFreezesTheLog : Obligations.ReadPhaseFreezesTheLog := fun _ _ h hphase =>
  ⟨(coreTick_of_step h).log_of_readPhase hphase, step_addr_of_fell h⟩

/-! ### What a tick can do to the log -/

/-- The tick captures a read in the write phase (R101). -/
def capturing (s : State) : Bool := fell s && writePhase s.rep.st

/-- The log's registers after a tick of the state `s`, with the case that gives them. -/
inductive LogTick (s : State) : LogRegs → Prop where
  /-- R100, R101 -/
  | keep (hread : capturing s = false) : LogTick s s.log
  /-- R102 -/
  | skip (hread : capturing s = true) (hskip : 0 < s.log.skip) : LogTick s (skipped s)
  /-- R103 -/
  | append (hread : capturing s = true) (hskip : s.log.skip = 0) (hroom : s.log.wp < s.par.cap) : LogTick s (appended s)
  /-- R104 -/
  | drop (hread : capturing s = true) (hskip : s.log.skip = 0) (hfull : s.par.cap ≤ s.log.wp) : LogTick s s.log

theorem CoreTick.logTick {s t : State} (h : CoreTick s t) : LogTick s t.log := by
  cases hfell : fell s with
  | false =>
    rw [h.log, hfell, if_neg Bool.false_ne_true]
    exact .keep (by rw [capturing, hfell, Bool.false_and])
  | true =>
    rw [h.log_of_fell hfell]
    cases hphase : writePhase s.rep.st with
    | false =>
      rw [logStep_of_readPhase hphase]
      exact .keep (by rw [capturing, hphase, Bool.and_false])
    | true =>
      have hread : capturing s = true := by rw [capturing, hfell, hphase, Bool.and_true]
      obtain hskip | hskip := Nat.eq_zero_or_pos s.log.skip
      · obtain hroom | hfull := Nat.lt_or_ge s.log.wp s.par.cap
        · rw [logStep_append hphase hskip hroom]
          exact .append hread hskip hroom
        · rw [logStep_drop hskip hfull]
          exact .drop hread hskip hfull
      · rw [logStep_skip hphase hskip]
        exact .skip hread hskip

/-- Settles O36: of the cases of a tick only the skip writes the counter. -/
theorem skipCounterOnlyCountsDown : Obligations.SkipCounterOnlyCountsDown := by
  intro s t h
  have hlog := (coreTick_of_step h).logTick
  generalize t.log = l at hlog ⊢
  cases hlog with
  | keep | drop => exact ⟨le_rfl, id, fun hne => absurd rfl hne⟩
  | append =>
    rw [appended_skip]
    exact ⟨le_rfl, id, fun hne => absurd rfl hne⟩
  | skip hread hskip =>
    obtain ⟨hfell, hphase⟩ := (Bool.and_eq_true _ _).mp hread
    exact ⟨Nat.sub_le _ _, fun hzero => absurd hzero hskip.ne',
      fun _ => ⟨hfell, hphase, Nat.sub_add_cancel hskip⟩⟩

/-- Settles O37: of the cases of a tick only the append writes `wp` and a record, the one at `wp`. -/
theorem logOnlyGrows : Obligations.LogOnlyGrows := by
  intro s t h
  have htick := coreTick_of_step h
  have hlog := htick.logTick
  rw [htick.par_eq]
  generalize t.log = l at hlog ⊢
  cases hlog with
  | keep | drop | skip => exact ⟨le_rfl, Nat.le_succ _, id, fun _ _ => rfl⟩
  | append hread hskip hroom =>
    rw [appended_wp hroom]
    exact ⟨Nat.le_succ _, le_rfl, fun _ => hroom, fun i hi => appended_read s i hi.ne⟩

end Sys2Proof.Machine
end

section
/-!
PROOFS. The log along a run (R109): what the log of a state becomes once given reads have been captured, that a tick
accounts for the read it captures, and O38.
-/

namespace Sys2Proof.Machine

open Host.Outcome

/-! ### The captures of a run -/

/-- What a tick adds to the captures of a run. -/
def capturedNow (s : State) : List Record := if capturing s then [captured s] else []

theorem captures_succ {s u : State} (n : Nat) (h : step s = next u) :
    captures (n + 1) s = capturedNow s ++ captures n u := by
  rw [captures, h, capturedNow, capturing]

theorem capturedNow_of_not_capturing {s : State} (h : capturing s = false) : capturedNow s = [] := by
  rw [capturedNow, h, if_neg Bool.false_ne_true]

theorem capturedNow_of_capturing {s : State} (h : capturing s = true) : capturedNow s = [captured s] := if_pos h

/-! ### The log after given reads -/

/-- The records of the log once the reads `rs` have been captured: the first `skip` are skipped, and what has no room is
dropped. -/
def loggedAfter (s : State) (rs : List Record) : List Record :=
  logged s ++ (rs.drop s.log.skip).take (s.par.cap - s.log.wp)

theorem loggedAfter_nil (s : State) : loggedAfter s [] = logged s := by
  rw [loggedAfter, List.drop_nil, List.take_nil, List.append_nil]

/-- A tick accounts for the read that it captures, if any. -/
theorem CoreTick.loggedAfter_eq {s t : State} (h : CoreTick s t) (hs : LogInv s) (rs : List Record) :
    loggedAfter t rs = loggedAfter s (capturedNow s ++ rs) := by
  obtain ⟨-, -, -, hkeys⟩ := hs
  have hlog := h.logTick
  rw [loggedAfter, loggedAfter, logged, logged, h.par_eq]
  generalize t.log = l at hlog ⊢
  cases hlog with
  | keep hread => rw [capturedNow_of_not_capturing hread, List.nil_append]
  | skip hread hskip =>
    obtain ⟨k, hk⟩ := Nat.exists_eq_add_one.2 hskip
    rw [capturedNow_of_capturing hread, skipped_skip, hk]
    rfl
  | append hread hskip hroom =>
    obtain ⟨k, hk⟩ := Nat.exists_eq_add_one.2 (Nat.sub_pos_of_lt hroom)
    have hk' : s.par.cap - (s.log.wp + 1) = k := by omega
    rw [capturedNow_of_capturing hread, appended_eq hroom hkeys, hskip, hk, hk']
    simp
  | drop hread hskip hfull => rw [Nat.sub_eq_zero_of_le hfull, List.take_zero, List.take_zero]

/-- A read counts `skip` down while it is positive (R102, R106). -/
theorem CoreTick.skip_eq {s t : State} (h : CoreTick s t) : t.log.skip = s.log.skip - (capturedNow s).length := by
  have hlog := h.logTick
  generalize t.log = l at hlog ⊢
  cases hlog with
  | keep hread => rw [capturedNow_of_not_capturing hread]; rfl
  | skip hread => rw [capturedNow_of_capturing hread]; rfl
  | append hread hskip => rw [appended_skip, hskip, Nat.zero_sub]
  | drop hread hskip => rw [hskip, Nat.zero_sub]

/-- A run leaves the log that its captures make of its first state's. -/
theorem run_logged {n : Nat} {s t : State} (hs : LogInv s) (hrun : run n s = next t) :
    logged t = loggedAfter s (captures n s) ∧ t.log.skip = s.log.skip - (captures n s).length := by
  induction n generalizing s with
  | zero =>
    cases hrun
    exact ⟨(loggedAfter_nil t).symm, rfl⟩
  | succ n ih =>
    obtain ⟨u, hu, hrest⟩ := andThen_eq_next.1 hrun
    have htick := coreTick_of_step hu
    obtain ⟨hlogged, hskip⟩ := ih (htick.logInv hs) hrest
    rw [captures_succ n hu]
    refine ⟨hlogged.trans (htick.loggedAfter_eq hs _), ?_⟩
    rw [hskip, htick.skip_eq, List.length_append, Nat.sub_sub]

/-! ### The log read back -/

theorem LogInv.length_logged {s : State} (hs : LogInv s) : (logged s).length = s.log.wp := by
  rw [logged, List.length_map, hs.length_cells]

/-- An index reads as the record at that place of the log; from `wp` on, the log space's end included, there is none. -/
theorem LogInv.logRead_eq {s : State} (hs : LogInv s) (i : Nat) : logRead s.par s.log.cells i = (logged s)[i]? := by
  have hlen := hs.length_logged
  obtain ⟨hwp, -, -, hkeys⟩ := hs
  have hread := Memory.read_eq_getElem? (List.range_eq_range' ▸ hkeys) i
  rw [Nat.zero_add, ← List.getElem?_map] at hread
  rw [logRead]
  split
  · exact hread
  · exact (List.getElem?_eq_none (by omega)).symm

/-- Settles O38: at power-on the log is empty and `skip` is `SKIP`, and every tick keeps the log's invariant, by which
the cells are the indices below `wp`. -/
theorem logHoldsTheReadsAfterTheSkipWindow : Obligations.LogHoldsTheReadsAfterTheSkipWindow := by
  intro c ins n t hrun
  have hs : LogInv (State.init c ins) := logInv_init c ins
  have ht : LogInv t := run_preserves (fun _ _ hu h => (coreTick_of_step h).logInv hu) hs hrun
  obtain ⟨hlogged, hskip⟩ := run_logged hs hrun
  exact ⟨hlogged, ht.length_logged.symm, hskip, ht.logRead_eq⟩

end Sys2Proof.Machine
end

section
/-!
PROOFS. The rules of the report machine (R114 to R122): a send as the one way to raise `tx_ready`, O46 and O47; what each
wait and each delay does to the report registers in each of its cases, and O39 to O45.
-/

namespace Sys2Proof.Machine

open Host.Outcome

/-! ### `done` (R122) -/

theorem step_rep_of_done {s t : State} (hst : s.rep.st = St.done) (h : step s = next t) : t.rep = quiet s.rep := by
  obtain ⟨r, u, hr, -, rfl⟩ := step_eq_next.1 h
  cases exec_of_reportSide hst rfl hr
  rfl

theorem step_st_of_done (s t : State) (hst : s.rep.st = St.done) (h : step s = next t) : t.rep.st = St.done := by
  rw [step_rep_of_done hst h, quiet_st, hst]

/-- Settles O46: standing in `done` is a property that every tick keeps; the address is the bus side's. -/
theorem doneIsTerminal : Obligations.DoneIsTerminal :=
  ⟨fun _ => rfl, fun _ _ _ hst => run_preserves (P := (·.rep.st = St.done)) step_st_of_done hst,
   fun _ _ hst h => ⟨step_rep_of_done hst h, step_addr_of_fell h⟩⟩

/-! ### The sends (R111, R114, R118) -/

/-- The ticks in which the report machine offers a character: the two send states, the second with something captured. -/
def sends (s : State) : Prop := s.rep.st = St.sendInitialChar ∨ (s.rep.st = St.sendChar ∧ s.log.wp ≠ 0)

theorem not_sends_of_st {s : State} {c : Nibble} (hst : s.rep.st = c)
    (hc : c ≠ St.sendInitialChar ∧ c ≠ St.sendChar) : ¬ sends s := by
  obtain ⟨hbanner, hline⟩ := hc
  rintro (h | ⟨h, -⟩)
  · exact hbanner (hst.symm.trans h)
  · exact hline (hst.symm.trans h)

theorem not_sends_of_empty {s : State} (hst : s.rep.st = St.sendChar) (hwp : s.log.wp = 0) : ¬ sends s := by
  rintro (h | ⟨-, h⟩)
  · exact absurd (hst.symm.trans h) (by decide)
  · exact h hwp

/-- A step of a named state sends and raises `tx_ready`, or does neither and keeps `tx_data` (R111). -/
theorem ReportStep.sends_or_quiet {s : State} {q : ReportRegs} (h : ReportStep s q) (hnamed : s.rep.st.toNat ≤ 8) :
    (sends s ∧ q.txReady = true) ∨ (¬ sends s ∧ q.txReady = false ∧ q.txData = s.rep.txData) := by
  cases h with
  | sendBanner hst => exact .inl ⟨.inl hst, rfl⟩
  | sendLine v hst hwp => exact .inl ⟨.inr ⟨hst, hwp⟩, rfl⟩
  | drainNothing hst hwp => exact .inr ⟨not_sends_of_empty hst hwp, rfl, rfl⟩
  | unused hst => omega
  | holdChar hst | delayChar hst =>
    obtain hst | hst := hst <;> exact .inr ⟨not_sends_of_st hst (by decide), rfl, rfl⟩
  | bannerMore hst | bannerLast hst | bannerNext hst | holdFull hst | startDrain hst | lineMore hst | lineLast hst
  | lineNext hst | delayRecord hst | recordNext hst | recordLast hst | stayDone hst =>
    exact .inr ⟨not_sends_of_st hst (by decide), rfl, rfl⟩

/-- Settles O47. -/
theorem readyIsAPulseAfterASend : Obligations.ReadyIsAPulseAfterASend := by
  intro s t hnamed h
  obtain ⟨hsends, hready⟩ | ⟨hsends, hready, hdata⟩ := (coreTick_of_step h).rep.sends_or_quiet hnamed
  · exact ⟨iff_of_true hready hsends, fun hquiet => by rw [hready] at hquiet; cases hquiet⟩
  · exact ⟨iff_of_false (by rw [hready]; decide) hsends, fun _ => hdata⟩

/-- A default is not read inside the list. -/
theorem getElem?_eq_some_getD {α : Type} {l : List α} {i : Nat} (h : i < l.length) (d : α) :
    l[i]? = some (l[i]?.getD d) := by
  rw [List.getElem?_eq_getElem h, Option.getD_some]

/-- Settles O39. -/
theorem sendInitialCharSendsTheBanner : Obligations.SendInitialCharSendsTheBanner := fun _ =>
  ⟨_, rfl, fun hcidx => getElem?_eq_some_getD hcidx _, rfl⟩

theorem exec_stSendChar_of_empty {s : State} (hwp : s.log.wp = 0) :
    exec .stSendChar s = next { s with rep := { quiet s.rep with st := St.done } } := if_pos hwp

theorem exec_stSendChar_of_record {s : State} {v : Record} (hwp : s.log.wp ≠ 0)
    (hread : logRead s.par s.log.cells s.rep.rp = some v) :
    exec .stSendChar s = next { s with rep := send s.rep (lineChar s v) St.waitAck } := by
  rw [exec, execStSendChar, if_neg hwp, hread]

theorem exec_stSendChar_of_unwritten {s : State} (hwp : s.log.wp ≠ 0)
    (hread : logRead s.par s.log.cells s.rep.rp = none) : exec .stSendChar s = fault .unwrittenLogRead := by
  rw [exec, execStSendChar, if_neg hwp, hread]

/-- Settles O43, by the three branches of the rule. -/
theorem sendCharSendsTheRecordLine : Obligations.SendCharSendsTheRecordLine :=
  ⟨fun _ => exec_stSendChar_of_empty,
   fun _ _ hwp hread => ⟨_, exec_stSendChar_of_record hwp hread,
     fun hcidx => getElem?_eq_some_getD (hcidx.trans_eq (recordLine_length _ _ _).symm) _, rfl⟩,
   fun _ => exec_stSendChar_of_unwritten⟩

/-! ### The waits and the delays: their cases, and the registers that they do not write -/

theorem withRep_congr (s : State) {q q' : ReportRegs} (h : q = q') :
    ({ s with rep := q } : State) = { s with rep := q' } := h ▸ rfl

theorem awaitAck_cases (r : ReportRegs) (ack : Bool) (len : Nat) (last more : Nibble) :
    let q := awaitAck r ack len last more
    (ack = false → q.cidx = r.cidx ∧ q.st = r.st) ∧
    (ack = true → r.cidx = len - 1 → q.cidx = 0 ∧ q.st = last) ∧
    (ack = true → r.cidx ≠ len - 1 → q.cidx = r.cidx + 1 ∧ q.st = more) ∧
    q = { r with txReady := false, cidx := q.cidx, st := q.st } := by
  refine ⟨fun hack => ?_, fun hack hcidx => ?_, fun hack hcidx => ?_, ?_⟩
  · simp [awaitAck, hack]
  · simp [awaitAck, hack, hcidx]
  · simp [awaitAck, hack, hcidx]
  · unfold awaitAck
    split
    · split <;> rfl
    · rfl

/-- Settles O40. -/
theorem initWaitAckFollowsTheAcknowledge : Obligations.InitWaitAckFollowsTheAcknowledge := fun s =>
  have ⟨hstay, hlast, hmore, hframe⟩ := awaitAck_cases s.rep s.tx.ack s.par.bannerLen St.waitFull St.initialWait
  ⟨_, rfl, hstay, hlast, hmore, withRep_congr s hframe⟩

/-- Settles O44. -/
theorem waitAckFollowsTheAcknowledge : Obligations.WaitAckFollowsTheAcknowledge := fun s =>
  have ⟨hstay, hlast, hmore, hframe⟩ := awaitAck_cases s.rep s.tx.ack (recLen s.par) St.actualDelay St.wait
  ⟨_, rfl, hstay, hlast, hmore, withRep_congr s hframe⟩

theorem holdDelay_cases (r : ReportRegs) (ticks : Nat) (after : Nibble) :
    let q := holdDelay r ticks after
    (r.dly = ticks - 1 → q.dly = 0 ∧ q.st = after) ∧
    (r.dly ≠ ticks - 1 → q.dly = r.dly + 1 ∧ q.st = r.st) ∧
    q = { r with txReady := false, dly := q.dly, st := q.st } := by
  refine ⟨fun hlast => ?_, fun hmore => ?_, ?_⟩
  · simp [holdDelay, hlast]
  · simp [holdDelay, hmore]
  · unfold holdDelay
    split <;> rfl

/-- Settles O41: the two states are one delay with another state after it. -/
theorem characterDelaysCountToTheirEnd : Obligations.CharacterDelaysCountToTheirEnd := by
  intro i after s hi
  obtain ⟨hlast, hmore, hframe⟩ := holdDelay_cases s.rep s.par.dChar after
  obtain ⟨rfl, rfl⟩ | ⟨rfl, rfl⟩ := hi <;> exact ⟨_, rfl, hlast, hmore, withRep_congr s hframe⟩

theorem holdFull_cases (r : ReportRegs) (isFull : Bool) :
    let q := holdFull r isFull
    (isFull = true ∨ r.tmo = 0 → q.st = St.sendChar ∧ q.tmo = r.tmo) ∧
    (¬ (isFull = true ∨ r.tmo = 0) → q.st = r.st ∧ q.tmo + 1 = r.tmo) ∧
    q = { r with txReady := false, tmo := q.tmo, st := q.st } := by
  refine ⟨fun hend => ?_, fun hmore => ?_, ?_⟩
  · rw [holdFull, if_pos hend]
    exact ⟨rfl, rfl⟩
  · rw [holdFull, if_neg hmore]
    exact ⟨rfl, Nat.succ_pred fun htmo => hmore (.inr htmo)⟩
  · unfold holdFull
    split <;> rfl

theorem full_eq_true_iff {s : State} : full s = true ↔ s.log.wp = s.par.cap := decide_eq_true_iff

/-- Settles O42. -/
theorem waitFullEndsOnFullOrTimeout : Obligations.WaitFullEndsOnFullOrTimeout := by
  intro s
  obtain ⟨hend, hmore, hframe⟩ := holdFull_cases s.rep (full s)
  rw [full_eq_true_iff] at hend hmore
  exact ⟨_, rfl, hend, fun hwp htmo => hmore (not_or.2 ⟨hwp, htmo⟩), withRep_congr s hframe⟩

theorem holdRecord_cases (r : ReportRegs) (ticks wp : Nat) :
    let q := holdRecord r ticks wp
    (r.dly ≠ ticks - 1 → q.dly = r.dly + 1 ∧ q.rp = r.rp ∧ q.st = r.st) ∧
    (r.dly = ticks - 1 → r.rp + 1 < wp → q.dly = 0 ∧ q.rp = r.rp + 1 ∧ q.st = St.sendChar) ∧
    (r.dly = ticks - 1 → wp ≤ r.rp + 1 → q.dly = 0 ∧ q.rp = r.rp ∧ q.st = St.done) ∧
    q = { r with txReady := false, dly := q.dly, rp := q.rp, st := q.st } := by
  refine ⟨fun hmore => ?_, fun hlast hrp => ?_, fun hlast hrp => ?_, ?_⟩
  · simp [holdRecord, hmore]
  · simp [holdRecord, hlast, hrp]
  · simp [holdRecord, hlast, hrp.not_gt]
  · unfold holdRecord
    split
    · split <;> rfl
    · rfl

/-- Settles O45. -/
theorem actualDelayMovesToTheNextRecord : Obligations.ActualDelayMovesToTheNextRecord := fun s =>
  have ⟨hmore, hnext, hdone, hframe⟩ := holdRecord_cases s.rep s.par.dRec s.log.wp
  ⟨_, rfl, hmore, hnext, hdone, withRep_congr s hframe⟩

end Sys2Proof.Machine
end

section
/-!
PROOFS. Where a tick stops: the two faults of a state (R46, R140), that a state of the core's invariant meets neither of
them with any transmitter that meets the contract, and O16 and O54.
-/

namespace Sys2Proof.Machine

open Host.Outcome

/-! ### The report side -/

theorem reportSide_of_st {s : State} {c : Nibble} {i : Instr} (hst : s.rep.st = c) (hi : decodeFsm c = .ok i) :
    reportSide s = exec i s := by
  rw [reportSide, fsmRow, hst, hi]

/-- The report side stops in `send_char` alone, at a current record that nothing has written (R46, R118). -/
theorem reportSide_cases (s : State) :
    (∃ r, reportSide s = next r) ∨
      (reportSide s = fault .unwrittenLogRead ∧ s.rep.st = St.sendChar ∧ s.log.wp ≠ 0 ∧
        logRead s.par s.log.cells s.rep.rp = none) := by
  by_cases hnamed : s.rep.st.toNat ≤ 8
  · obtain (hst | hst | hst) | (hst | hst | hst) | (hst | hst | hst) := st_cases hnamed
    case inr.inr.inl =>
      rw [reportSide_of_st hst rfl]
      by_cases hwp : s.log.wp = 0
      · exact .inl ⟨_, exec_stSendChar_of_empty hwp⟩
      · cases hread : logRead s.par s.log.cells s.rep.rp with
        | some v => exact .inl ⟨_, exec_stSendChar_of_record hwp hread⟩
        | none => exact .inr ⟨exec_stSendChar_of_unwritten hwp hread, hst, hwp, rfl⟩
    all_goals exact .inl ⟨_, reportSide_of_st hst rfl⟩
  · exact .inl ⟨s, reportSide_unused s (by omega)⟩

/-- In a state of the invariant the current record of a line has been written (R107, R108). -/
theorem CoreInv.reportSide_next {s : State} (hs : CoreInv s) : ∃ r, reportSide s = next r := by
  obtain ⟨hlog, -, hreport⟩ := hs
  refine (reportSide_cases s).resolve_right ?_
  rintro ⟨-, hst, hwp, hread⟩
  obtain ⟨-, -, hrp, -⟩ := (reportInv_sendChar hst).1 hreport
  rw [hlog.logRead_eq, List.getElem?_eq_none_iff, hlog.length_logged] at hread
  omega

/-! ### The transmitter -/

/-- A character is offered only to a transmitter that holds none (R124, R133). -/
theorem HandshakeInv.not_clash {s : State} (hs : HandshakeInv s) : s.tx.busy = false ∨ s.rep.txReady = false := by
  obtain ⟨hwait, hrest⟩ := hs
  cases hst : ackWait s.rep.st with
  | false => exact .inr (hrest hst).1
  | true =>
    obtain ⟨-, hbusy, -⟩ | ⟨hready, -, -⟩ | ⟨hready, -, -⟩ := hwait hst
    · exact .inl hbusy
    · exact .inr hready
    · exact .inr hready

theorem CoreInv.handshakeInv {s : State} (hs : CoreInv s) : HandshakeInv s := by
  obtain ⟨-, hhand, -⟩ := hs
  exact hhand

/-! ### A tick -/

theorem tickWith_next {s r u : State} {x : Host.Outcome State Fault Refusal} (hr : reportSide s = next r)
    (hx : x = next u) : tickWith s x = next (commit s (busNext s) r u) :=
  tickWith_eq_next.2 ⟨r, u, hr, hx, rfl⟩

theorem CoreInv.stepAbstract_next {s : State} (hs : CoreInv s) (want : Bool) : ∃ t, stepAbstract want s = next t := by
  obtain ⟨r, hr⟩ := hs.reportSide_next
  exact ⟨_, tickWith_next hr (abstractTx_next want s hs.handshakeInv.not_clash)⟩

theorem CoreInv.step_next {s : State} (hs : CoreInv s) : ∃ t, step s = next t := by
  obtain ⟨r, hr⟩ := hs.reportSide_next
  exact ⟨_, tickWith_next hr (txRow_next s hs.handshakeInv.not_clash)⟩

/-- Settles O16: the tick meets neither fault, and a tick with a transmitter that meets the contract keeps the
invariant. -/
theorem coreInvariantHoldsForEveryTransmitter : Obligations.CoreInvariantHoldsForEveryTransmitter := fun want _ hs =>
  have ⟨t, h⟩ := hs.stepAbstract_next want
  ⟨t, h, (coreTick_of_stepAbstract h).coreInv hs⟩

theorem transmitBusy_of_ready {s : State} (hbusy : s.tx.busy = true) (hready : s.rep.txReady = true) (g : TxRegs) :
    transmitBusy s g = fault .readyWhileBusy := by
  rw [transmitBusy, hbusy, hready]
  rfl

/-- Settles O54: the step faults with the report side where that stops, and else with the transmitter's row. -/
theorem readyWhileBusyFaults : Obligations.ReadyWhileBusyFaults := by
  intro s hbusy hready
  have hrow (g : TxRegs) := transmitBusy_of_ready hbusy hready g
  refine ⟨hrow _, hrow _, hrow _, ?_⟩
  rw [step, tick, tickWith_eq, txRow_fault s hbusy hready]
  obtain ⟨r, hr⟩ | ⟨hfault, -⟩ := reportSide_cases s
  · exact ⟨_, by rw [hr, andThen_next, andThen_fault]⟩
  · exact ⟨_, by rw [hfault, andThen_fault]⟩

end Sys2Proof.Machine
end

section
/-!
PROOFS. The rows of the reference transmitter (R135 to R139): the frame of a character, the line of a tick, and O52 and
O53.
-/

namespace Sys2Proof.Machine

open Host.Outcome

/-! ### The frame of a character (R135, R137) -/

theorem serialFrame_eq_concat (c : Byte) : serialFrame c = (c.cons true).concat false := rfl

theorem serialFrame_start (c : Byte) : (serialFrame c).getLsbD 0 = false := by
  rw [serialFrame_eq_concat, BitVec.getLsbD_concat, if_pos rfl]

theorem serialFrame_data (c : Byte) {k : Nat} (hk : k < 8) : (serialFrame c).getLsbD (k + 1) = c.getLsbD k := by
  rw [serialFrame_eq_concat, BitVec.getLsbD_concat, if_neg (by omega), BitVec.getLsbD_cons, Nat.add_sub_cancel,
    if_neg hk.ne]

theorem serialFrame_stop (c : Byte) : (serialFrame c).getLsbD 9 = true := by
  rw [serialFrame_eq_concat, BitVec.getLsbD_concat, if_neg (by decide), BitVec.getLsbD_cons, if_pos rfl]

/-! ### The rows -/

theorem txLine_of_idle {s : State} (hbusy : s.tx.busy = false) : txLine s = true := by
  rw [txLine, hbusy]
  rfl

theorem txLine_of_busy {s : State} (hbusy : s.tx.busy = true) : txLine s = s.tx.frame.getLsbD s.tx.bit.val :=
  if_pos hbusy

theorem transmit_of_line {s : State} {b : Bool} (h : txLine s = b) (g : TxRegs) :
    transmit s g = { s with tx := g, lines := { s.lines with txLine := b } } := by
  rw [transmit, h]

theorem transmitBusy_of_quiet {s : State} (hready : s.rep.txReady = false) (g : TxRegs) :
    transmitBusy s g = next (transmit s g) := by
  rw [transmitBusy, hready, Bool.and_false]
  rfl

/-- Settles O52: the idle line is 1, and the frame is the data bits between the start and the stop bit. -/
theorem idleTransmitterAcceptsACharacter : Obligations.IdleTransmitterAcceptsACharacter := by
  intro s hbusy
  have hidle (g : TxRegs) := transmit_of_line (txLine_of_idle hbusy) g
  exact ⟨congrArg next (hidle _), _, rfl, rfl, rfl, rfl, rfl, serialFrame_start _, serialFrame_stop _,
    fun _ => serialFrame_data _, hidle _⟩

/-- Settles O53: a busy row that is offered no character answers its registers and the frame's bit. -/
theorem busyTransmitterShiftsTheFrame : Obligations.BusyTransmitterShiftsTheFrame := by
  intro s hbusy hready
  have hline (g : TxRegs) := transmit_of_line (txLine_of_busy hbusy) g
  have hrow (g : TxRegs) := (transmitBusy_of_quiet hready g).trans (congrArg next (hline g))
  exact ⟨hrow _, fun hbit => ⟨_, hrow _, rfl, Fin.val_add_one_of_lt' (by omega), rfl, hbusy, rfl, rfl⟩, hrow _⟩

end Sys2Proof.Machine
end

section
/-!
PROOFS. The reference transmitter over a run (R137, R139, R178): its part of the invariant over a tick, the state in
each tick of a frame, and O55.
-/

namespace Sys2Proof.Machine

open Host.Outcome

/-! ### The registers after a tick, by the row -/

theorem step_tx {s t : State} (h : step s = next t) : t.tx = txNext s ∧ t.lines.txLine = txLine s := by
  obtain ⟨r, u, -, hu, rfl⟩ := step_eq_next.1 h
  rw [exec_txRow_eq_next hu]
  exact ⟨rfl, rfl⟩

section
variable {s : State}

theorem txNext_idle (hbusy : s.tx.busy = false) (hready : s.rep.txReady = false) :
    txNext s = { s.tx with ack := false } := by
  simp [txNext, hbusy, hready]

theorem txNext_accept (hbusy : s.tx.busy = false) (hready : s.rep.txReady = true) :
    txNext s = { busy := true, frame := serialFrame s.rep.txData, bit := 0, cnt := 0, ack := false } := by
  simp [txNext, hbusy, hready]

theorem txNext_holdBit (hbusy : s.tx.busy = true) (hcnt : s.tx.cnt ≠ s.par.txDiv - 1) :
    txNext s = { s.tx with cnt := s.tx.cnt + 1, ack := false } := by
  simp [txNext, cntEnd, hbusy, hcnt]

theorem txNext_nextBit (hbusy : s.tx.busy = true) (hcnt : s.tx.cnt = s.par.txDiv - 1) (hbit : s.tx.bit ≠ 9) :
    txNext s = { s.tx with cnt := 0, bit := s.tx.bit + 1, ack := false } := by
  simp [txNext, cntEnd, bitEnd, hbusy, hcnt, hbit]

theorem txNext_frameEnd (hbusy : s.tx.busy = true) (hcnt : s.tx.cnt = s.par.txDiv - 1) (hbit : s.tx.bit = 9) :
    txNext s = { s.tx with cnt := 0, bit := 0, busy := false, ack := true } := by
  simp [txNext, cntEnd, bitEnd, hbusy, hcnt, hbit]

/-! ### The transmitter's part of the invariant -/

theorem txInv_txNext (hs : TxInv s) : TxInv { s with tx := txNext s } := by
  obtain ⟨hcnt, hidle, hframe⟩ := hs
  have hdiv : 0 < s.par.txDiv := Nat.zero_lt_of_lt hcnt
  cases hbusy : s.tx.busy with
  | false =>
    cases hready : s.rep.txReady with
    | false =>
      rw [txNext_idle hbusy hready]
      exact ⟨hcnt, hidle, hframe⟩
    | true =>
      rw [txNext_accept hbusy hready]
      exact ⟨hdiv, fun h => Bool.noConfusion h, fun _ => rfl⟩
  | true =>
    have hno {p : Prop} (h : s.tx.busy = false) : p := by rw [hbusy] at h; cases h
    by_cases hend : s.tx.cnt = s.par.txDiv - 1
    · by_cases hbit : s.tx.bit = 9
      · rw [txNext_frameEnd hbusy hend hbit]
        exact ⟨hdiv, fun _ => ⟨rfl, rfl⟩, fun h => Bool.noConfusion h⟩
      · rw [txNext_nextBit hbusy hend hbit]
        exact ⟨hdiv, hno, hframe⟩
    · have hlt : s.tx.cnt + 1 < s.par.txDiv := by omega
      rw [txNext_holdBit hbusy hend]
      exact ⟨hlt, hno, hframe⟩

end

/-! ### The report machine beside the transmitter -/

/-- In an acknowledge wait a step without an acknowledge only clears `tx_ready`, and one with it leaves the wait (R115,
R119). -/
theorem ReportStep.of_ackWait {s : State} {q : ReportRegs} (h : ReportStep s q) (hwait : ackWait s.rep.st = true) :
    (s.tx.ack = false ∧ q = quiet s.rep) ∨ (s.tx.ack = true ∧ ackWait q.st = false) := by
  have hno {c : Nibble} {p : Prop} (hst : s.rep.st = c) (hc : ackWait c = false) : p := by
    rw [hst, hc] at hwait
    cases hwait
  cases h with
  | holdChar hst hack => exact .inl ⟨hack, rfl⟩
  | bannerMore hst hack | bannerLast hst hack | lineMore hst hack | lineLast hst hack => exact .inr ⟨hack, rfl⟩
  | delayChar hst => obtain hst | hst := hst <;> exact hno hst rfl
  | unused hst => exact hno rfl (ackWait_unused hst)
  | sendBanner hst | bannerNext hst | holdFull hst | startDrain hst | drainNothing hst | sendLine v hst | lineNext hst
  | delayRecord hst | recordNext hst | recordLast hst | stayDone hst => exact hno hst rfl

/-- A character is held in an acknowledge wait before its acknowledge (R124, R131). -/
theorem HandshakeInv.of_holdsChar {s : State} (hs : HandshakeInv s) (h : holdsChar s = true) :
    ackWait s.rep.st = true ∧ s.tx.ack = false := by
  refine ⟨Bool.eq_true_of_not_eq_false fun hst => ?_, Bool.eq_false_of_not_eq_true fun hack => ?_⟩
  · rw [holdsChar_eq_false hs (.inl hst)] at h
    cases h
  · rw [holdsChar_eq_false hs (.inr hack)] at h
    cases h

/-- While a character is held the report machine waits. -/
theorem CoreTick.rep_of_holdsChar {s t : State} (h : CoreTick s t) (hs : HandshakeInv s) (hheld : holdsChar s = true) :
    t.rep = quiet s.rep := by
  obtain ⟨hwait, hack⟩ := hs.of_holdsChar hheld
  obtain ⟨-, hq⟩ | ⟨hyes, -⟩ := h.rep.of_ackWait hwait
  · exact hq
  · rw [hack] at hyes
    cases hyes

/-- A tick that leaves a character held started with it held, so its `tx_data` is still the one in the frame. -/
theorem step_txInv {s t : State} (h : step s = next t) (hhand : HandshakeInv s) (hs : TxInv s) : TxInv t := by
  have hcore := coreTick_of_step h
  obtain ⟨hcnt, hidle, hframe⟩ := txInv_txNext hs
  rw [TxInv, (step_tx h).1, hcore.par_eq]
  refine ⟨hcnt, hidle, fun hbusy => ?_⟩
  obtain ⟨want, htbusy, -⟩ := hcore.tx
  have hheld : holdsChar s = true := by
    rw [(step_tx h).1, hbusy] at htbusy
    exact (Bool.and_eq_true_iff.1 htbusy.symm).1
  rw [hcore.rep_of_holdsChar hhand hheld]
  exact hframe hbusy

theorem step_inv {s t : State} (h : step s = next t) (hs : Inv s) : Inv t := by
  obtain ⟨hcore, htx⟩ := hs
  exact ⟨(coreTick_of_step h).coreInv hcore, step_txInv h hcore.handshakeInv htx⟩

/-! ### The ticks of a frame -/

/-- `t` comes in the run from `s` as the start of tick `j` of the frame, in which the character that `s` offers is
sent. -/
structure Sending (s t : State) (j : Nat) : Prop where
  inv : Inv t
  cfg : t.cfg = s.cfg
  st : t.rep.st = s.rep.st
  txData : t.rep.txData = s.rep.txData
  busy : t.tx.busy = true
  ticks : t.tx.cnt + s.par.txDiv * t.tx.bit.val = j

/-- A tick that starts with a character held. -/
theorem exists_step_of_holdsChar {s : State} (hs : Inv s) (hheld : holdsChar s = true) :
    ∃ t, step s = next t ∧ Inv t ∧ t.cfg = s.cfg ∧ t.rep = quiet s.rep ∧ t.tx = txNext s := by
  obtain ⟨t, h⟩ := hs.1.step_next
  have hrep : t.rep = quiet s.rep := (coreTick_of_step h).rep_of_holdsChar hs.1.handshakeInv hheld
  exact ⟨t, h, step_inv h hs, step_cfg h, hrep, (step_tx h).1⟩

theorem holdsChar_of_ready {s : State} (h : s.rep.txReady = true) : holdsChar s = true := by
  rw [holdsChar, h, Bool.or_true]

theorem holdsChar_of_busy {s : State} (h : s.tx.busy = true) : holdsChar s = true := by
  rw [holdsChar, h, Bool.true_or]

/-- R135: the tick that shows the character starts its frame. -/
theorem sending_of_ready {s : State} (hs : Inv s) (hready : s.rep.txReady = true) :
    ∃ t, step s = next t ∧ Sending s t 0 := by
  have hbusy : s.tx.busy = false := hs.1.handshakeInv.not_clash.resolve_right (by rw [hready]; decide)
  obtain ⟨t, h, hinv, hcfg, hrep, htx⟩ := exists_step_of_holdsChar hs (holdsChar_of_ready hready)
  rw [txNext_accept hbusy hready] at htx
  exact ⟨t, h, hinv, hcfg, by rw [hrep, quiet_st], by rw [hrep, quiet_txData], by rw [htx], by rw [htx]; rfl⟩

section
variable {s t : State} {j : Nat} (h : Sending s t j)
include h

theorem Sending.par : t.par = s.par := congrArg Config.params h.cfg

theorem Sending.handshakeInv : HandshakeInv t := h.inv.1.handshakeInv

theorem Sending.bit_eq : t.tx.bit.val = j / s.par.txDiv := by
  obtain ⟨hcnt, -⟩ := h.inv.2
  rw [h.par] at hcnt
  exact (((Nat.div_mod_unique (Nat.zero_lt_of_lt hcnt)).2 ⟨h.ticks, hcnt⟩).1).symm

/-- R139: the line is at the bit of the frame that the divider has come to. -/
theorem Sending.line : txLine t = (serialFrame s.rep.txData).getLsbD (j / s.par.txDiv) := by
  obtain ⟨-, -, hframe⟩ := h.inv.2
  rw [txLine_of_busy h.busy, hframe h.busy, h.txData, h.bit_eq]

/-- R136: the divider counts on, or is at its end and the next bit begins. -/
theorem Sending.succ (hj : j + 1 < 10 * s.par.txDiv) : ∃ u, step t = next u ∧ Sending s u (j + 1) := by
  obtain ⟨u, hu, hinv, hcfg, hrep, htx⟩ := exists_step_of_holdsChar h.inv (holdsChar_of_busy h.busy)
  have hticks := h.ticks
  have hregs : u.tx.busy = true ∧ u.tx.cnt + s.par.txDiv * u.tx.bit.val = j + 1 := by
    by_cases hcnt : t.tx.cnt = t.par.txDiv - 1
    · have hbit : t.tx.bit ≠ 9 := by
        intro hlast
        rw [hcnt, hlast, h.par] at hticks
        omega
      have hval : (t.tx.bit + 1).val = t.tx.bit.val + 1 := Fin.val_add_one_of_lt' (by omega)
      obtain ⟨hlt, -⟩ := h.inv.2
      rw [h.par] at hcnt hlt
      rw [htx, txNext_nextBit h.busy (by rw [h.par, hcnt]) hbit]
      refine ⟨h.busy, ?_⟩
      simp only [hval, Nat.mul_succ]
      omega
    · rw [htx, txNext_holdBit h.busy hcnt]
      exact ⟨h.busy, by rw [← hticks, Nat.add_right_comm]⟩
  obtain ⟨hbusy, hnext⟩ := hregs
  exact ⟨u, hu, hinv, hcfg.trans h.cfg, by rw [hrep, quiet_st, h.st],
    by rw [hrep, quiet_txData, h.txData], hbusy, hnext⟩

/-- R138: the last tick of the stop bit acknowledges. -/
theorem Sending.last (hj : j + 1 = 10 * s.par.txDiv) :
    ∃ u, step t = next u ∧ Inv u ∧ u.tx.ack = true ∧ u.rep.st = s.rep.st := by
  obtain ⟨u, hu, hinv, -, hrep, htx⟩ := exists_step_of_holdsChar h.inv (holdsChar_of_busy h.busy)
  have hticks := h.ticks
  have hdiv : 0 < s.par.txDiv := by omega
  have hbit : t.tx.bit.val = 9 := by
    rw [h.bit_eq]
    exact ((Nat.div_mod_unique (c := s.par.txDiv - 1) hdiv).2 ⟨by omega, by omega⟩).1
  have hcnt : t.tx.cnt = t.par.txDiv - 1 := by
    rw [hbit] at hticks
    rw [h.par]
    omega
  rw [txNext_frameEnd h.busy hcnt (Fin.ext hbit)] at htx
  exact ⟨u, hu, hinv, by rw [htx], by rw [hrep, quiet_st, h.st]⟩

end

/-! ### Runs -/

/-- A run of one tick more ends with that tick. -/
theorem run_succ_of_step {n : Nat} {s t u : State} (hrun : run n s = next t) (h : step t = next u) :
    run (n + 1) s = next u := by
  rw [run_add, hrun, andThen_next, run, h]
  rfl

theorem run_sending {s : State} (hs : Inv s) (hready : s.rep.txReady = true) {j : Nat} (hj : j < 10 * s.par.txDiv) :
    ∃ t, run (j + 1) s = next t ∧ Sending s t j := by
  induction j with
  | zero =>
    obtain ⟨t, h, hsend⟩ := sending_of_ready hs hready
    exact ⟨t, run_succ_of_step rfl h, hsend⟩
  | succ j ih =>
    obtain ⟨t, hrun, hsend⟩ := ih (by omega)
    obtain ⟨u, h, hnext⟩ := hsend.succ hj
    exact ⟨u, run_succ_of_step hrun h, hnext⟩

/-- The acknowledge comes with the tick after the frame's last. -/
theorem run_acknowledged {s : State} (hs : Inv s) (hready : s.rep.txReady = true) :
    ∃ t, run (10 * s.par.txDiv + 1) s = next t ∧ Inv t ∧ t.tx.ack = true ∧ t.rep.st = s.rep.st := by
  obtain ⟨-, -, -, -, -, -, hdiv⟩ := Config.bounds s.cfg
  obtain ⟨j, hj⟩ : ∃ j, j + 1 = 10 * s.par.txDiv := ⟨_, Nat.sub_add_cancel (by omega)⟩
  obtain ⟨t, hrun, hsend⟩ := run_sending hs hready (j := j) (by omega)
  obtain ⟨u, h, hu⟩ := hsend.last hj
  exact ⟨u, hj ▸ run_succ_of_step hrun h, hu⟩

/-- An acknowledge lasts one tick, and in it the machine leaves its wait (R115, R119, R131). -/
theorem step_of_ack {s : State} (hs : Inv s) (hack : s.tx.ack = true) :
    ∃ t, step s = next t ∧ t.tx.ack = false ∧ ackWait t.rep.st = false := by
  obtain ⟨t, h⟩ := hs.1.step_next
  have hhand : HandshakeInv s := hs.1.handshakeInv
  have hcore := coreTick_of_step h
  refine ⟨t, h, (hcore.idle (holdsChar_eq_false hhand (.inr hack))).2, ?_⟩
  have hwait : ackWait s.rep.st = true := Bool.eq_true_of_not_eq_false fun hrest => by
    obtain ⟨-, -, hno⟩ := hhand.2 hrest
    rw [hno] at hack
    cases hack
  obtain ⟨hno, -⟩ | ⟨-, hleft⟩ := hcore.rep.of_ackWait hwait
  · rw [hno] at hack
    cases hack
  · exact hleft

/-- Settles O55: after `j + 1` ticks the frame is at its tick `j`, whose line the next tick shows; its last tick
acknowledges, and the one after that leaves the wait. -/
theorem acceptedCharacterIsSentBitByBit : Obligations.AcceptedCharacterIsSentBitByBit := by
  intro s hs hready
  obtain ⟨v, hrun, hv, hack, hst⟩ := run_acknowledged hs hready
  refine ⟨fun j hj => ?_, fun k hk => ?_, ⟨v, hrun, hack, hst⟩, ?_⟩
  · obtain ⟨t, hrun, hsend⟩ := run_sending hs hready hj
    obtain ⟨u, h⟩ := hsend.inv.1.step_next
    exact ⟨u, run_succ_of_step hrun h, (step_tx h).2.trans hsend.line⟩
  · cases k with
    | zero => exact ⟨s, rfl, (hs.1.handshakeInv.of_holdsChar (holdsChar_of_ready hready)).2, rfl⟩
    | succ j =>
      obtain ⟨t, hrun, hsend⟩ := run_sending hs hready hk
      exact ⟨t, hrun, (hsend.handshakeInv.of_holdsChar (holdsChar_of_busy hsend.busy)).2, hsend.st⟩
  · obtain ⟨w, h, hend⟩ := step_of_ack hv hack
    exact ⟨w, run_succ_of_step hrun h, hend⟩

end Sys2Proof.Machine
end

section
/-!
PROOFS. The boundary contract (R130, R131, R141): the reference transmitter as one of the abstract transmitters, O56;
and the count of characters and acknowledges over a run with any of them, O57.
-/

namespace Sys2Proof.Machine

open Host.Outcome

/-! ### The reference transmitter as an abstract one -/

/-- A transmitter row that answers was not offered a character over the one it holds (R140). -/
theorem not_clash_of_txRow {s u : State} (h : exec (txRow s) s = next u) :
    s.tx.busy = false ∨ s.rep.txReady = false := by
  cases hbusy : s.tx.busy with
  | false => exact .inl rfl
  | true =>
    refine .inr (Bool.eq_false_of_not_eq_true fun hready => ?_)
    rw [txRow_fault s hbusy hready] at h
    cases h

/-- Settles O56: the choice is the one by which the transmitter's row meets the contract, and the two ticks then write
the same `tx_busy` and `tx_ack`. -/
theorem referenceTransmitterMeetsTheContract : Obligations.ReferenceTransmitterMeetsTheContract := by
  intro s t h
  obtain ⟨r, u, hr, hu, rfl⟩ := step_eq_next.1 h
  obtain ⟨want, hbusy, hack⟩ := txNext_contract s
  refine ⟨want, _, tickWith_next hr (abstractTx_next want s (not_clash_of_txRow hu)), ?_⟩
  rw [exec_txRow_eq_next hu, ← hbusy, ← hack]
  rfl

/-! ### One acknowledge for each character -/

/-- The characters taken and not yet seen acknowledged by the report machine. -/
def awaited (s : State) : Nat := if s.tx.busy = true ∨ s.tx.ack = true then 1 else 0

/-- What a transmitter holds it holds on or acknowledges. -/
theorem CoreTick.awaited_eq {s t : State} (h : CoreTick s t) : awaited t = (holdsChar s).toNat := by
  obtain ⟨want, hbusy, hack⟩ := h.tx
  rw [awaited, hbusy, hack]
  cases holdsChar s <;> cases want <;> rfl

/-- A tick takes the character that it shows, and gives up the one whose acknowledge is seen. -/
theorem CoreTick.shown_add_awaited {s t : State} (h : CoreTick s t) (hs : HandshakeInv s) :
    (charShown s).toList.length + awaited s = (if s.tx.ack then 1 else 0) + awaited t := by
  rw [h.awaited_eq]
  obtain ⟨hwait, hrest⟩ := hs
  cases hst : ackWait s.rep.st with
  | true =>
    obtain ⟨hready, hbusy, hack⟩ | ⟨hready, hbusy, hack⟩ | ⟨hready, hbusy, hack⟩ := hwait hst <;>
      simp [charShown, awaited, holdsChar, hready, hbusy, hack]
  | false =>
    obtain ⟨hready, hbusy, hack⟩ := hrest hst
    simp [charShown, awaited, holdsChar, hready, hbusy, hack]

theorem length_streamAbstract {ws : List Bool} {s t : State} (hs : CoreInv s) (hrun : runAbstract ws s = next t) :
    (streamAbstract ws s).length + awaited s = acksAbstract ws s + awaited t := by
  induction ws generalizing s with
  | nil =>
    cases hrun
    rfl
  | cons w ws ih =>
    obtain ⟨u, hu, hrest⟩ := andThen_eq_next.1 hrun
    have h := coreTick_of_stepAbstract hu
    have htick := h.shown_add_awaited hs.handshakeInv
    have hafter := ih (h.coreInv hs) hrest
    simp only [streamAbstract, acksAbstract, hu, List.length_append]
    omega

/-! ### The acknowledge that comes at last -/

theorem runAbstract_coreInv {ws : List Bool} {s t : State} (hs : CoreInv s) (hrun : runAbstract ws s = next t) :
    CoreInv t :=
  runAbstract_preserves (fun _ _ _ hu h => (coreTick_of_stepAbstract h).coreInv hu) hs hrun

theorem stepAbstract_tx {w : Bool} {s t : State} (h : stepAbstract w s = next t) :
    t.tx.busy = (holdsChar s && !w) ∧ t.tx.ack = (holdsChar s && w) := by
  obtain ⟨r, u, -, hu, rfl⟩ := stepAbstract_eq_next.1 h
  unfold abstractTx at hu
  split at hu
  · cases hu
  · cases hu
    exact ⟨rfl, rfl⟩

/-- A character held is acknowledged by the first choice to do so that comes, `k` ticks on at the latest. -/
theorem ack_of_choice {w : Nat → Bool} {s t : State} {n : Nat} (k : Nat) (hs : CoreInv s)
    (hrun : runAbstract (choices w n) s = next t) (hheld : holdsChar t = true) (hw : w (n + k) = true) :
    ∃ m u, n < m ∧ runAbstract (choices w m) s = next u ∧ u.tx.ack = true := by
  obtain ⟨u, hu⟩ := (runAbstract_coreInv hs hrun).stepAbstract_next (w n)
  have hnext : runAbstract (choices w (n + 1)) s = next u := by
    rw [runAbstract_choices_succ, hrun, andThen_next, hu]
  obtain ⟨hbusy, hack⟩ := stepAbstract_tx hu
  cases hn : w n with
  | true => exact ⟨n + 1, u, n.lt_succ_self, hnext, by rw [hack, hheld, hn]; rfl⟩
  | false =>
    cases k with
    | zero => rw [Nat.add_zero, hn] at hw; cases hw
    | succ k =>
      have hstill : holdsChar u = true := holdsChar_of_busy (by rw [hbusy, hheld, hn]; rfl)
      obtain ⟨m, v, hm, hv⟩ := ack_of_choice k hs hnext hstill (by rwa [Nat.add_right_comm])
      exact ⟨m, v, by omega, hv⟩

/-- Settles O57: at power-on no character is awaited; and a fair transmitter chooses at last to acknowledge the one it
holds. -/
theorem oneAcknowledgePerCharacter : Obligations.OneAcknowledgePerCharacter := by
  refine ⟨fun c ins ws t hrun => ?_, fun c ins w n t hfair hrun hheld => ?_⟩
  · exact length_streamAbstract (inv_init c ins).1 hrun
  · obtain ⟨m, hnm, hw⟩ := hfair n t hrun hheld
    exact ack_of_choice (m - n) (inv_init c ins).1 hrun hheld (by rwa [Nat.add_sub_cancel' hnm])

end Sys2Proof.Machine
end

section
/-!
PROOFS. The whole tick (R10, R146, R155): that a state of the invariant has a next one, O15; that the log's cells stay
canonical, O18; the tick as the decoded rows, O6; what each row writes, O7; and what the report machine and the
transmitter read, O11.
-/

namespace Sys2Proof.Machine

open Host.Outcome

/-! ### What every tick keeps -/

theorem Inv.step_next {s : State} (hs : Inv s) : ∃ t, step s = next t ∧ Inv t := by
  obtain ⟨t, h⟩ := CoreInv.step_next hs.1
  exact ⟨t, h, step_inv h hs⟩

/-- Settles O15: the tick meets neither fault, and keeps the core's part of the invariant and the transmitter's. -/
theorem invariantStatesNeverStopAndKeepIt : Obligations.InvariantStatesNeverStopAndKeepIt := fun _ => Inv.step_next

theorem CoreTick.log_wf {s t : State} (h : CoreTick s t) (hs : Memory.wf s.log.cells) : Memory.wf t.log.cells := by
  rw [h.log]
  split
  · exact logStep_wf s hs
  · exact hs

/-- Settles O18: the one write of a tick to the log is the log step's. -/
theorem tickKeepsTheLogCanonical : Obligations.TickKeepsTheLogCanonical :=
  ⟨fun _ _ hs h => (coreTick_of_step h).log_wf hs, fun _ _ _ hs h => (coreTick_of_stepAbstract h).log_wf hs⟩

/-! ### The decoded rows (R56, R146) -/

section
variable {s : State} {i : Instr} (hi : decodeFsm s.rep.st = .ok i)
include hi

theorem reportSide_of_decodeFsm : reportSide s = exec i s := by
  rw [reportSide, fsmRow, hi]

/-- A fault of the report row is the step's: the bus side before it has none. -/
theorem step_of_report_fault {f : Fault} (h : exec i s = fault f) : step s = fault f := by
  rw [step, tick, tickWith_eq, reportSide_of_decodeFsm hi, h, andThen_fault]

/-- So is a fault of the transmitter row, once the report row has answered. -/
theorem step_of_tx_fault {r : State} {f : Fault} (h : exec i s = next r) (hx : exec (txRow s) s = fault f) :
    step s = fault f := by
  rw [step_of_reportSide ((reportSide_of_decodeFsm hi).trans h), hx, andThen_fault]

end

/-- The strobe row and then the latch row are the bus side (R84). -/
theorem busNext_of_rows {s s1 s2 : State} (hstrobe : exec (strobeRow s) s = next s1)
    (hlatch : exec (latchRow s) s1 = next s2) : busNext s = s2 := by
  obtain ⟨u, hu, hnext⟩ := exec_latchRow s
  rw [hstrobe] at hu
  cases hu
  rw [hlatch] at hnext
  cases hnext
  rfl

/-- The row that `GW` selects leaves the log as the tick does: only on a falling edge is it another row than
CAPTURE_NONE. -/
theorem exec_captureRow (s : State) : exec (captureRow s) s = next { s with log := (busNext s).log } := by
  cases hfell : fell s with
  | false =>
    rw [captureRow, busNext_log, hfell]
    rfl
  | true =>
    rw [captureRow, busNext_log, hfell]
    exact exec_decodeLog_of_fell s

/-- Settles O6. -/
theorem stepRunsTheDecodedRows : Obligations.StepRunsTheDecodedRows := by
  intro s i hi
  refine ⟨fun s1 s2 r x hstrobe hlatch hr hx => ?_, fun f => step_of_report_fault hi, fun r f => step_of_tx_fault hi⟩
  have hbus : busNext s = s2 := busNext_of_rows hstrobe hlatch
  subst hbus
  exact ⟨step_eq_next.2 ⟨r, x, (reportSide_of_decodeFsm hi).trans hr, hx, rfl⟩, _, exec_captureRow s, rfl⟩

/-! ### What a row writes -/

/-- A log step that does not append writes no record and leaves `wp` (R101, R102, R104). -/
theorem logStep_cells_wp {s : State}
    (h : ¬ (writePhase s.rep.st = true ∧ s.log.skip = 0 ∧ s.log.wp < s.par.cap)) :
    (logStep s).cells = s.log.cells ∧ (logStep s).wp = s.log.wp := by
  obtain hsame | ⟨-, hskipped⟩ | ⟨hskip, hroom, happend⟩ := logStep_cases s
  · rw [hsame]
    exact ⟨rfl, rfl⟩
  · rw [hskipped]
    exact ⟨rfl, rfl⟩
  · have hphase : writePhase s.rep.st = false := Bool.eq_false_of_not_eq_true fun hp => h ⟨hp, hskip, hroom⟩
    rw [logStep_of_readPhase hphase]
    exact ⟨rfl, rfl⟩

/-- One that does not skip leaves `skip` (R101, R103, R104). -/
theorem logStep_skip_eq {s : State} (h : ¬ (writePhase s.rep.st = true ∧ 0 < s.log.skip)) :
    (logStep s).skip = s.log.skip := by
  obtain hsame | ⟨hskip, -⟩ | ⟨-, -, happend⟩ := logStep_cases s
  · rw [hsame]
  · have hphase : writePhase s.rep.st = false := Bool.eq_false_of_not_eq_true fun hp => h ⟨hp, hskip⟩
    rw [logStep_of_readPhase hphase]
  · rw [happend, appended_skip]

theorem execStSendChar_frame {s t : State} (h : execStSendChar s = next t) : t = { s with rep := t.rep } := by
  unfold execStSendChar at h
  split at h
  · cases h; rfl
  · split at h <;> cases h; rfl

theorem transmitBusy_frame {s t : State} {g : TxRegs} (h : transmitBusy s g = next t) :
    t = { s with tx := t.tx, lines := { s.lines with txLine := t.lines.txLine } } := by
  unfold transmitBusy at h
  split at h <;> cases h
  rfl

theorem appended_frame (s : State) : appended s = { s.log with wp := (appended s).wp, cells := (appended s).cells } := by
  unfold appended
  split <;> rfl

/-- Settles O7, row by row: ST_SEND_CHAR and the busy rows answer on one path and fault on the other, RD_FALL's log is
the log step, and what the other rows write stands in their meaning. -/
theorem rowsWriteOnlyTheirComponent : Obligations.RowsWriteOnlyTheirComponent := by
  intro i s t h
  cases i with
  | stSendChar => exact execStSendChar_frame h
  | txHoldBit | txNextBit | txFrameEnd => exact transmitBusy_frame h
  | rdFall =>
    cases h
    exact ⟨rfl, logStep_read s, logStep_cells_wp, logStep_skip_eq⟩
  | captureAppend =>
    cases h
    exact ⟨congrArg (fun l => { s with log := l }) (appended_frame s), appended_read s⟩
  | latchHi | latchLo | latchNone | rdIdle | rdRise | rdHold | stSendInitialChar | stInitWaitAck | stInitialWait
  | stWaitFull | stWaitAck | stWait | stActualDelay | stDone | txIdle | txAccept | captureNone | captureGated
  | captureSkip | captureDrop =>
    cases h
    rfl

/-! ### What the report machine and the transmitter read (R146) -/

/-- The state with other bus registers, bus inputs and lines. -/
def withBus (s : State) (ins : List InputWord) (prev : Bool) (a : Addr) (l : Lines) : State :=
  { s with inputs := ins, rdPrev := prev, addr := a, lines := l }

theorem eq_withBus {s s' : State} (hcfg : s'.cfg = s.cfg) (htick : s'.tick = s.tick) (hlog : s'.log = s.log)
    (hrep : s'.rep = s.rep) (htx : s'.tx = s.tx) : s' = withBus s s'.inputs s'.rdPrev s'.addr s'.lines := by
  rw [withBus, ← hcfg, ← htick, ← hlog, ← hrep, ← htx]

section
variable (s : State) (ins : List InputWord) (prev : Bool) (a : Addr) (l : Lines)

theorem exec_stSendChar_withBus :
    exec .stSendChar (withBus s ins prev a l) =
      andThen (exec .stSendChar s) fun r => next (withBus r ins prev a l) := by
  by_cases hwp : s.log.wp = 0
  · rw [exec_stSendChar_of_empty hwp, exec_stSendChar_of_empty (s := withBus s ins prev a l) hwp]
    rfl
  · cases hread : logRead s.par s.log.cells s.rep.rp with
    | some v =>
      rw [exec_stSendChar_of_record hwp hread, exec_stSendChar_of_record (s := withBus s ins prev a l) hwp hread]
      rfl
    | none =>
      rw [exec_stSendChar_of_unwritten hwp hread,
        exec_stSendChar_of_unwritten (s := withBus s ins prev a l) hwp hread]
      rfl

/-- The report side reads the configuration, the log, its own registers, `tx_ack` and the tick counter alone. -/
theorem reportSide_withBus :
    reportSide (withBus s ins prev a l) = andThen (reportSide s) fun r => next (withBus r ins prev a l) := by
  by_cases hnamed : s.rep.st.toNat ≤ 8
  · obtain (hst | hst | hst) | (hst | hst | hst) | (hst | hst | hst) := st_cases hnamed <;>
      rw [reportSide_of_st hst rfl, reportSide_of_st (s := withBus s ins prev a l) hst rfl]
    case inr.inr.inl => exact exec_stSendChar_withBus s ins prev a l
    all_goals rfl
  · have hunused : 9 ≤ s.rep.st.toNat := by omega
    rw [reportSide_unused s hunused, reportSide_unused (withBus s ins prev a l) hunused]
    rfl

theorem step_rep_withBus {t t' : State} (h : step s = next t) (h' : step (withBus s ins prev a l) = next t') :
    t'.rep = t.rep := by
  obtain ⟨r, u, hr, -, rfl⟩ := step_eq_next.1 h
  obtain ⟨r', u', hr', -, rfl⟩ := step_eq_next.1 h'
  rw [reportSide_withBus, hr, andThen_next] at hr'
  cases hr'
  rfl

end

/-- Settles O11: a state that agrees on what the two read is the first one with another bus, and the transmitter's
registers and line are functions of what it shares. -/
theorem reportAndTransmitterIgnoreTheBus : Obligations.ReportAndTransmitterIgnoreTheBus := by
  intro s s' t t' hcfg htick hlog hrep htx h h'
  rw [eq_withBus hcfg htick hlog hrep htx] at h'
  obtain ⟨hregs, hline⟩ := step_tx h
  obtain ⟨hregs', hline'⟩ := step_tx h'
  exact ⟨step_rep_withBus s _ _ _ _ h h', hregs'.trans hregs.symm, hline'.trans hline.symm⟩

end Sys2Proof.Machine
end

section
/-!
PROOFS. Decoding of encoded and of laid words (30_encoding.md): the encoded word of a latch row by its fields, O1 and O2;
and the model's own placing of a table word (log entries 13 and 14), O5.
-/

namespace Sys2Proof.Machine

/-- Settles O1, word by word. -/
theorem sampleWordsDecodeToTheirRows : Obligations.SampleWordsDecodeToTheirRows := by
  unfold Obligations.SampleWordsDecodeToTheirRows
  decide

/-! ### Encoded words -/

/-- A word with the operand in bits 19:4 and the enables in bits 1:0, by its fields (R55). -/
theorem ofNat_eq_wordFields (d : Half) (aleS aleP : Bool) :
    BitVec.ofNat 21 (aleS.toNat * 2 + aleP.toNat + d.toNat * 16) =
      BitVec.ofBool false ++ wordFields d false false aleS aleP := by
  apply BitVec.eq_of_toNat_eq
  have hd := d.isLt
  have hS := aleS.toNat_lt
  have hP := aleP.toNat_lt
  rw [wordFields_eq_concat, BitVec.toNat_append]
  simp only [BitVec.toNat_ofBool, BitVec.toNat_concat, BitVec.toNat_ofNat, Bool.toNat_false, Nat.zero_shiftLeft,
    Nat.zero_or]
  omega

/-- The encoded word of a latch row that writes has the row's enables and its operand (R57). -/
theorem decode_latchFields (d : Half) (aleS : Bool) :
    decode .latch (aleS.toNat * 2 + 1 + d.toNat * 16) = .ok (if aleS then .latchHi d else .latchLo d) := by
  have hd := d.isLt
  have hS := aleS.toNat_lt
  have hwidth : aleS.toNat * 2 + 1 + d.toNat * 16 < 2 ^ Format.latch.width := by
    simp only [Format.width]
    omega
  rw [decode, if_pos hwidth]
  exact congrArg _ ((congrArg decodeLatch (ofNat_eq_wordFields d aleS true)).trans (decodeLatch_wordFields ..))

/-- Settles O2: the two latch rows that write give their operand back, and every other row has one encoded word. -/
theorem decodeOfEncodeIsTheInstruction : Obligations.DecodeOfEncodeIsTheInstruction := by
  intro i
  cases i with
  | latchHi d => exact decode_latchFields d true
  | latchLo d => exact decode_latchFields d false
  | _ => rfl

/-! ### A laid decode word -/

/-- Bit 20 goes to the read sample and the rest to the input word (R55). -/
theorem decodeWord_placeDecodeWord (s : State) (dw : DecodeWord) : decodeWord (placeDecodeWord s dw) = dw := by
  apply BitVec.eq_of_getLsbD_eq
  intro i hi
  obtain hlt | rfl : i < 20 ∨ i = 20 := by omega
  · rw [decodeWord_getLsbD _ i hlt]
    simp [placeDecodeWord, inputWord, hlt]
  · exact decodeWord_rdPrev _

/-! ### The row that a table word is read as -/

theorem decode_tooWide {f : Format} {w : Nat} (h : ¬ w < 2 ^ f.width) : decode f w = .error (.wordTooWide f w) :=
  if_neg h

/-- A row that `decode` answers is the row of a word of its format. -/
theorem lt_of_decode {f : Format} {w : Nat} {i : Instr} (h : decode f w = .ok i) : w < 2 ^ f.width := by
  by_contra hw
  rw [decode_tooWide hw] at h
  cases h

theorem decode_of_toOption {f : Format} {w : Nat} {i : Instr} (h : (decode f w).toOption = some i) :
    decode f w = .ok i := by
  cases hrow : decode f w with
  | ok j => rw [hrow] at h; cases h; rfl
  | error e => rw [hrow] at h; cases h

/-- A word of 24 bits is read in one of the two wide formats. -/
theorem tableFormatWide_cases (dw : DecodeWord) : tableFormatWide dw = .latch ∨ tableFormatWide dw = .strobe := by
  unfold tableFormatWide
  repeat' split
  all_goals simp

theorem tableFormatNarrow_cases (w : Nat) :
    tableFormatNarrow w = .fsmState ∨ tableFormatNarrow w = .txState ∨ tableFormatNarrow w = .logStep := by
  unfold tableFormatNarrow
  repeat' split
  all_goals simp

/-- A 24-bit table word is read as the row of its latch or of its strobe group. -/
theorem decodeTableWord_wide {w : Nat} (hw : w < 2 ^ 21) :
    decodeTableWord 24 w = some (decodeLatch (BitVec.ofNat 21 w)) ∨
      decodeTableWord 24 w = some (decodeStrobe (BitVec.ofNat 21 w)) := by
  have hlatch : decode .latch w = .ok (decodeLatch (BitVec.ofNat 21 w)) := if_pos hw
  have hstrobe : decode .strobe w = .ok (decodeStrobe (BitVec.ofNat 21 w)) := if_pos hw
  rw [decodeTableWord, if_pos rfl]
  obtain hf | hf := tableFormatWide_cases (BitVec.ofNat 21 w)
  · exact .inl (by rw [hf, hlatch]; rfl)
  · exact .inr (by rw [hf, hstrobe]; rfl)

theorem lt_of_decodeTableWord_wide {w : Nat} {i : Instr} (h : decodeTableWord 24 w = some i) : w < 2 ^ 21 := by
  rw [decodeTableWord, if_pos rfl] at h
  have hw := lt_of_decode (decode_of_toOption h)
  obtain hf | hf := tableFormatWide_cases (BitVec.ofNat 21 w) <;> rw [hf] at hw <;> exact hw

/-- An 8-bit table word is read as a row of one of the three narrow formats. -/
theorem format_of_decodeTableWord_narrow {w : Nat} {i : Instr} (h : decodeTableWord 8 w = some i) :
    i.format = .fsmState ∨ i.format = .txState ∨ i.format = .logStep := by
  have hrow : decode (tableFormatNarrow w) w = .ok i := decode_of_toOption h
  rw [(decode_ok (lt_of_decode hrow) hrow).1]
  exact tableFormatNarrow_cases w

/-! ### A laid table word -/

theorem withFetchWord_wide (s : State) {w : Nat} {i : Instr} (h : decodeTableWord 24 w = some i) :
    s.withFetchWord 24 w = placeDecodeWord s (BitVec.ofNat 21 w) := by
  rw [State.withFetchWord, placeTableWord, h]
  exact if_pos rfl

theorem withFetchWord_narrow (s : State) {w : Nat} {i : Instr} (h : decodeTableWord 8 w = some i) :
    s.withFetchWord 8 w = placeRow i s := by
  rw [State.withFetchWord, placeTableWord, h]
  exact if_neg (by decide)

theorem decodeWord_withFetchWord (s : State) {w : Nat} (hw : w < 2 ^ 21) :
    decodeWord (s.withFetchWord 24 w) = BitVec.ofNat 21 w := by
  obtain h | h := decodeTableWord_wide hw <;> rw [withFetchWord_wide s h, decodeWord_placeDecodeWord]

theorem wideRow_withFetchWord (s : State) {w : Nat} {i : Instr} (h : decodeTableWord 24 w = some i) :
    latchRow (s.withFetchWord 24 w) = i ∨ strobeRow (s.withFetchWord 24 w) = i := by
  have hw := lt_of_decodeTableWord_wide h
  rw [latchRow, strobeRow, decodeWord_withFetchWord s hw]
  obtain hrow | hrow := decodeTableWord_wide hw
  · exact .inl (Option.some.inj (hrow.symm.trans h))
  · exact .inr (Option.some.inj (hrow.symm.trans h))

/-! ### A placed row of a 4-bit format -/

theorem fsmRow_placeRow (s : State) {i : Instr} (hi : i.format = .fsmState) : fsmRow (placeRow i s) = .ok i := by
  cases i <;> cases hi <;> rfl

theorem txRow_placeRow (s : State) {i : Instr} (hi : i.format = .txState) : txRow (placeRow i s) = i := by
  cases i <;> cases hi <;> rfl

theorem fell_placeFall (s : State) : fell (placeFall s) = true := by
  have hprev : (0x100000#21).getLsbD 20 = true := by decide
  have hrd : ((0x100000#21).extractLsb' 0 20).getLsbD 2 = false := by decide
  exact fell_eq_true_iff.2 ⟨hprev, hrd⟩

theorem writePhase_placeWritePhase (s : State) : writePhase (placeWritePhase s).rep.st = true := by
  unfold placeWritePhase
  split
  · assumption
  · rfl

theorem placeWritePhase_log (s : State) : (placeWritePhase s).log = s.log := by
  unfold placeWritePhase
  split <;> rfl

theorem placeWritePhase_par (s : State) : (placeWritePhase s).par = s.par := by
  unfold placeWritePhase
  split <;> rfl

/-- A placed falling edge in the write phase: `skip` and then `wp` select the row (R102 to R104). -/
theorem captureRow_placeFall (s : State) :
    captureRow (placeFall (placeWritePhase s)) =
      if 0 < s.log.skip then .captureSkip
      else if s.log.wp < s.par.cap then .captureAppend
      else .captureDrop := by
  have hfell : fell (placeFall (placeWritePhase s)) = true := fell_placeFall _
  have hphase : writePhase (placeFall (placeWritePhase s)).rep.st = true := writePhase_placeWritePhase s
  have hskip : skipNz (placeFall (placeWritePhase s)) = decide (0 < s.log.skip) := by
    rw [← placeWritePhase_log s]; rfl
  have hroom : room (placeFall (placeWritePhase s)) = decide (s.log.wp < s.par.cap) := by
    rw [← placeWritePhase_log s, ← placeWritePhase_par s]; rfl
  rw [captureRow, hfell, hphase, hskip, hroom]
  by_cases hs : 0 < s.log.skip <;> by_cases hr : s.log.wp < s.par.cap <;> simp [decodeLog, hs, hr]

theorem captureRow_placeRow (s : State) {i : Instr} (hi : i.format = .logStep) : captureRow (placeRow i s) = i := by
  obtain ⟨hcap, -⟩ := Config.bounds s.cfg
  cases i with
  | captureNone => rfl
  | captureGated =>
    rw [placeRow, captureRow, fell_placeFall]
    rfl
  | captureSkip => exact captureRow_placeFall _
  | captureAppend =>
    have hroom : min s.log.wp (s.par.cap - 1) < s.par.cap :=
      (Nat.min_le_right _ _).trans_lt (Nat.sub_lt hcap Nat.one_pos)
    exact (captureRow_placeFall _).trans (if_pos hroom)
  | captureDrop => exact (captureRow_placeFall _).trans (if_neg (Nat.lt_irrefl s.par.cap))
  | _ => cases hi

/-- Settles O5: a wide word is laid as it is, and a narrow one is laid as the row of its format that it is read as. -/
theorem laidTableWordIsDecodedNext : Obligations.LaidTableWordIsDecodedNext := by
  refine ⟨fun s w => decodeWord_withFetchWord s, fun s w i => wideRow_withFetchWord s, fun s w i h => ?_⟩
  rw [withFetchWord_narrow s h]
  obtain hf | hf | hf := format_of_decodeTableWord_narrow h
  · exact .inl (fsmRow_placeRow s hf)
  · exact .inr (.inl (txRow_placeRow s hf))
  · exact .inr (.inr (captureRow_placeRow s hf))

end Sys2Proof.Machine
end

section
/-!
PROOFS. The end of the report (R148, R149, R177): the silence in `done`, O59; and a bound on the ticks left of a report
that every tick lowers, or leaves while a character is held, O60.
-/

namespace Sys2Proof.Machine

open Host.Outcome

/-! ### Runs of states of the invariant -/

theorem Inv.run_next {s : State} (hs : Inv s) (n : Nat) : ∃ t, run n s = next t ∧ Inv t := by
  induction n with
  | zero => exact ⟨s, rfl, hs⟩
  | succ n ih =>
    obtain ⟨t, hrun, ht⟩ := ih
    obtain ⟨u, h, hu⟩ := Inv.step_next ht
    exact ⟨u, run_succ_of_step hrun h, hu⟩

/-! ### The silence after the report -/

/-- No acknowledge is waited for in `done`, so nothing is offered, shown or sent (R124, R131). -/
theorem quiet_of_done {s : State} (hs : Inv s) (hst : s.rep.st = St.done) :
    charShown s = none ∧ txLine s = true := by
  have hrest : ackWait s.rep.st = false := by rw [hst]; rfl
  have hhand : HandshakeInv s := CoreInv.handshakeInv hs.1
  obtain ⟨-, hbusy, -⟩ := hhand.2 hrest
  exact ⟨charShown_of_rest hhand hrest, txLine_of_idle hbusy⟩

theorem stream_of_done {n : Nat} {s : State} (hs : Inv s) (hst : s.rep.st = St.done) : stream n s = [] := by
  induction n generalizing s with
  | zero => rfl
  | succ n ih =>
    obtain ⟨t, h, ht⟩ := Inv.step_next hs
    rw [stream, (quiet_of_done hs hst).1, h]
    exact ih ht (step_st_of_done s t hst h)

/-- Settles O59: every tick keeps `done` and the invariant, and the line of a tick is that of the state it starts in. -/
theorem silenceAfterTheReport : Obligations.SilenceAfterTheReport := by
  intro n s hs hst
  obtain ⟨t, hrun, ht⟩ := Inv.run_next hs n
  obtain ⟨u, h, -⟩ := Inv.step_next ht
  have htst : t.rep.st = St.done := run_preserves (P := (·.rep.st = St.done)) step_st_of_done hst hrun
  exact ⟨stream_of_done hs hst, u, run_succ_of_step hrun h, step_st_of_done t u htst h,
    (step_tx h).2.trans (quiet_of_done ht htst).2⟩

/-! ### The ticks left of a report

`c` is the time of a character: the tick of its send and the ticks of its acknowledge wait. `w` is what is left of the
present wait. -/

/-- The ticks of the `m` characters of a text after the present one, each with the delay before it. -/
def charsLeft (p : Params) (c m : Nat) : Nat := m * (c + p.dChar)

/-- The ticks of a record (R149). -/
def recordTicks (p : Params) (c : Nat) : Nat := c + charsLeft p c (recLen p - 1) + p.dRec

/-- The ticks of the records after the one at `rp`, with the log full. -/
def recordsLeft (p : Params) (c rp : Nat) : Nat := (p.cap - 1 - rp) * recordTicks p c

/-- The ticks after the present character of the banner, with `wait_full` at its longest. -/
def afterBannerChar (p : Params) (c cidx : Nat) : Nat :=
  charsLeft p c (p.bannerLen - 1 - cidx) + (p.tFull + 1) + p.cap * recordTicks p c

/-- The ticks after the present character of a line. -/
def afterLineChar (p : Params) (c cidx rp : Nat) : Nat :=
  charsLeft p c (recLen p - 1 - cidx) + p.dRec + recordsLeft p c rp

/-- A bound on the ticks until `done`. -/
def ticksLeft (p : Params) (c w : Nat) (r : ReportRegs) : Nat :=
  match r.st.toNat with
  | 0 => c + afterBannerChar p c r.cidx
  | 1 => w + afterBannerChar p c r.cidx
  | 2 => (p.dChar - r.dly) + c + afterBannerChar p c r.cidx
  | 3 => (r.tmo + 1) + p.cap * recordTicks p c
  | 4 => c + afterLineChar p c r.cidx r.rp
  | 5 => w + afterLineChar p c r.cidx r.rp
  | 6 => (p.dChar - r.dly) + c + afterLineChar p c r.cidx r.rp
  | 7 => (p.dRec - r.dly) + recordsLeft p c r.rp
  | _ => 0

section
variable {p : Params} {c w : Nat} {r : ReportRegs}

theorem ticksLeft_sendInitialChar (h : r.st = St.sendInitialChar) :
    ticksLeft p c w r = c + afterBannerChar p c r.cidx := by rw [ticksLeft, h]; rfl
theorem ticksLeft_initWaitAck (h : r.st = St.initWaitAck) :
    ticksLeft p c w r = w + afterBannerChar p c r.cidx := by rw [ticksLeft, h]; rfl
theorem ticksLeft_initialWait (h : r.st = St.initialWait) :
    ticksLeft p c w r = (p.dChar - r.dly) + c + afterBannerChar p c r.cidx := by rw [ticksLeft, h]; rfl
theorem ticksLeft_waitFull (h : r.st = St.waitFull) :
    ticksLeft p c w r = (r.tmo + 1) + p.cap * recordTicks p c := by rw [ticksLeft, h]; rfl
theorem ticksLeft_sendChar (h : r.st = St.sendChar) :
    ticksLeft p c w r = c + afterLineChar p c r.cidx r.rp := by rw [ticksLeft, h]; rfl
theorem ticksLeft_waitAck (h : r.st = St.waitAck) :
    ticksLeft p c w r = w + afterLineChar p c r.cidx r.rp := by rw [ticksLeft, h]; rfl
theorem ticksLeft_wait (h : r.st = St.wait) :
    ticksLeft p c w r = (p.dChar - r.dly) + c + afterLineChar p c r.cidx r.rp := by rw [ticksLeft, h]; rfl
theorem ticksLeft_actualDelay (h : r.st = St.actualDelay) :
    ticksLeft p c w r = (p.dRec - r.dly) + recordsLeft p c r.rp := by rw [ticksLeft, h]; rfl
theorem ticksLeft_done (h : r.st = St.done) : ticksLeft p c w r = 0 := by rw [ticksLeft, h]; rfl

theorem ticksLeft_quiet : ticksLeft p c w (quiet r) = ticksLeft p c w r := rfl

end

/-! ### What the ticks left are made of -/

section
variable (p : Params) (c : Nat)

/-- The next character of a text takes one character and one delay. -/
theorem charsLeft_sub {n k : Nat} (hk : k < n) :
    charsLeft p c (n - k) = p.dChar + c + charsLeft p c (n - (k + 1)) := by
  have hsucc : n - k = n - (k + 1) + 1 := by omega
  rw [charsLeft, charsLeft, hsucc, Nat.succ_mul]
  omega

theorem recordsLeft_succ {rp : Nat} (hrp : rp + 1 < p.cap) :
    recordsLeft p c rp = recordTicks p c + recordsLeft p c (rp + 1) := by
  have hsucc : p.cap - 1 - rp = p.cap - 1 - (rp + 1) + 1 := by omega
  rw [recordsLeft, recordsLeft, hsucc, Nat.succ_mul, Nat.add_comm]

theorem cap_mul_recordTicks (hcap : 1 ≤ p.cap) :
    p.cap * recordTicks p c = recordTicks p c + recordsLeft p c 0 := by
  have hsucc : p.cap = p.cap - 1 - 0 + 1 := by omega
  rw [recordsLeft, hsucc, Nat.succ_mul, ← hsucc, Nat.add_comm]

variable {cidx : Nat}

theorem afterBannerChar_more (hcidx : cidx < p.bannerLen) (hmore : cidx ≠ p.bannerLen - 1) :
    afterBannerChar p c cidx = p.dChar + c + afterBannerChar p c (cidx + 1) := by
  rw [afterBannerChar, afterBannerChar, charsLeft_sub p c (by omega : cidx < p.bannerLen - 1)]
  omega

theorem afterBannerChar_last (hlast : cidx = p.bannerLen - 1) :
    afterBannerChar p c cidx = (p.tFull + 1) + p.cap * recordTicks p c := by
  rw [afterBannerChar, hlast, Nat.sub_self, charsLeft, Nat.zero_mul, Nat.zero_add]

theorem afterLineChar_more (rp : Nat) (hcidx : cidx < recLen p) (hmore : cidx ≠ recLen p - 1) :
    afterLineChar p c cidx rp = p.dChar + c + afterLineChar p c (cidx + 1) rp := by
  rw [afterLineChar, afterLineChar, charsLeft_sub p c (by omega : cidx < recLen p - 1)]
  omega

theorem afterLineChar_last (rp : Nat) (hlast : cidx = recLen p - 1) :
    afterLineChar p c cidx rp = p.dRec + recordsLeft p c rp := by
  rw [afterLineChar, hlast, Nat.sub_self, charsLeft, Nat.zero_mul, Nat.zero_add]

/-- From its first character on a record takes its ticks. -/
theorem afterLineChar_first (rp : Nat) : c + afterLineChar p c 0 rp = recordTicks p c + recordsLeft p c rp := by
  rw [afterLineChar, Nat.sub_zero, recordTicks]
  omega

end

/-- At power-on they are the bound of R149 and R177. -/
theorem ticksLeft_init (k : Config) (ins : List InputWord) (w : Nat) :
    ticksLeft k.params (10 * k.params.txDiv + 3) w (State.init k ins).rep = reportBound k.params := by
  obtain ⟨-, -, -, hbanner, -⟩ := Config.bounds k
  have hline : 1 ≤ recLen k.params := Nat.le_add_left 1 _
  have hchars (c : Nat) {n : Nat} (hn : 1 ≤ n) :
      c + charsLeft k.params c (n - 1) = n * c + (n - 1) * k.params.dChar := by
    obtain ⟨n, rfl⟩ := Nat.exists_eq_add_of_le' hn
    rw [charsLeft, Nat.add_sub_cancel]
    ring
  rw [ticksLeft_sendInitialChar rfl, afterBannerChar, recordTicks, reportBound,
    hchars _ hline, ← hchars _ hbanner]
  simp only [State.init, Nat.sub_zero]
  omega

/-! ### What a tick does to them -/

/-- A tick with no character held lowers them: an acknowledge ends a wait (`0 < w`), and a send begins one with the tick
of the send before it (`w' < c`). -/
theorem CoreTick.ticksLeft_lt {s t : State} {c w w' : Nat} (h : CoreTick s t) (hs : CoreInv s)
    (hidle : holdsChar s = false) (hdone : s.rep.st ≠ St.done) (hw : 0 < w) (hc : w' < c) :
    ticksLeft t.par c w' t.rep < ticksLeft s.par c w s.rep := by
  obtain ⟨hlog, hhand, hreport⟩ := hs
  obtain ⟨hwp, -⟩ := hlog
  obtain ⟨hcap, -⟩ : 1 ≤ s.par.cap ∧ _ := Config.bounds s.cfg
  have hrep := h.rep
  rw [h.par_eq]
  generalize t.rep = q at hrep
  cases hrep with
  | holdChar hst hack =>
    have hwait : ackWait s.rep.st = true := by obtain hst | hst := hst <;> rw [hst] <;> rfl
    rw [holdsChar_eq_true hhand hwait hack] at hidle
    cases hidle
  | sendBanner hst =>
    rw [ticksLeft_sendInitialChar hst, ticksLeft_initWaitAck rfl]
    exact Nat.add_lt_add_right hc _
  | sendLine v hst =>
    rw [ticksLeft_sendChar hst, ticksLeft_waitAck rfl]
    exact Nat.add_lt_add_right hc _
  | bannerMore hst hack hcidx =>
    obtain ⟨-, -, hlen, hdly⟩ := (reportInv_banner (.inr hst)).1 hreport
    rw [ticksLeft_initWaitAck hst, ticksLeft_initialWait rfl, afterBannerChar_more _ c hlen hcidx]
    simp only [quiet_dly, hdly]
    omega
  | bannerLast hst hack hcidx =>
    obtain ⟨htmo, -⟩ := (reportInv_banner (.inr hst)).1 hreport
    rw [ticksLeft_initWaitAck hst, ticksLeft_waitFull rfl, afterBannerChar_last _ c hcidx]
    simp only [quiet_tmo, htmo]
    omega
  | delayChar hst hdly =>
    obtain hst | hst := hst
    · obtain ⟨-, -, -, hlt⟩ := (reportInv_initialWait hst).1 hreport
      rw [ticksLeft_initialWait hst, ticksLeft_initialWait (by exact hst)]
      simp only [quiet_cidx]
      omega
    · obtain ⟨-, -, -, hlt⟩ := (reportInv_wait hst).1 hreport
      rw [ticksLeft_wait hst, ticksLeft_wait (by exact hst)]
      simp only [quiet_cidx, quiet_rp]
      omega
  | bannerNext hst hdly =>
    obtain ⟨-, -, -, hlt⟩ := (reportInv_initialWait hst).1 hreport
    rw [ticksLeft_initialWait hst, ticksLeft_sendInitialChar rfl, quiet_cidx]
    omega
  | holdFull hst hend =>
    rw [ticksLeft_waitFull hst, ticksLeft_waitFull (by exact hst)]
    simp only
    omega
  | startDrain hst hend =>
    obtain ⟨-, hrp, hcidx, -⟩ := (reportInv_waitFull hst).1 hreport
    rw [ticksLeft_waitFull hst, ticksLeft_sendChar rfl, quiet_cidx, quiet_rp, hcidx, hrp, afterLineChar_first,
      cap_mul_recordTicks _ c hcap]
    omega
  | drainNothing hst hwp0 =>
    rw [ticksLeft_sendChar hst, ticksLeft_done rfl]
    omega
  | lineMore hst hack hcidx =>
    obtain ⟨-, hlen, -, hdly⟩ := (reportInv_waitAck hst).1 hreport
    rw [ticksLeft_waitAck hst, ticksLeft_wait rfl, afterLineChar_more _ c _ hlen hcidx]
    simp only [quiet_dly, quiet_rp, hdly]
    omega
  | lineLast hst hack hcidx =>
    obtain ⟨-, -, -, hdly⟩ := (reportInv_waitAck hst).1 hreport
    rw [ticksLeft_waitAck hst, ticksLeft_actualDelay rfl, afterLineChar_last _ c _ hcidx, quiet_dly, quiet_rp, hdly]
    omega
  | lineNext hst hdly =>
    obtain ⟨-, -, -, hlt⟩ := (reportInv_wait hst).1 hreport
    rw [ticksLeft_wait hst, ticksLeft_sendChar rfl, quiet_cidx, quiet_rp]
    omega
  | delayRecord hst hdly =>
    obtain ⟨-, -, -, hlt⟩ := (reportInv_actualDelay hst).1 hreport
    rw [ticksLeft_actualDelay hst, ticksLeft_actualDelay (by exact hst)]
    simp only [quiet_rp]
    omega
  | recordNext hst hdly hrp =>
    obtain ⟨-, hcidx, -, hlt⟩ := (reportInv_actualDelay hst).1 hreport
    rw [ticksLeft_actualDelay hst, ticksLeft_sendChar rfl, recordsLeft_succ _ c (hrp.trans_le hwp)]
    simp only [quiet_cidx, hcidx, afterLineChar_first]
    omega
  | recordLast hst hdly hrp =>
    obtain ⟨-, -, -, hlt⟩ := (reportInv_actualDelay hst).1 hreport
    rw [ticksLeft_actualDelay hst, ticksLeft_done rfl]
    omega
  | stayDone hst => exact absurd hst hdone
  | unused hst =>
    obtain ⟨hnamed, -⟩ := hreport
    omega

/-- In an acknowledge wait the ticks left are those of the wait and others that do not depend on it, so a tick that only
clears `tx_ready` lowers them with the wait. -/
theorem ticksLeft_quiet_lt {p : Params} {c w w' : Nat} {r : ReportRegs} (hwait : ackWait r.st = true) (hw : w' < w) :
    ticksLeft p c w' (quiet r) < ticksLeft p c w r := by
  rw [ackWait, Bool.or_eq_true, beq_iff_eq, beq_iff_eq] at hwait
  obtain hst | hst := hwait
  · rw [ticksLeft_quiet, ticksLeft_initWaitAck hst, ticksLeft_initWaitAck hst]
    exact Nat.add_lt_add_right hw _
  · rw [ticksLeft_quiet, ticksLeft_waitAck hst, ticksLeft_waitAck hst]
    exact Nat.add_lt_add_right hw _

/-! ### The reference transmitter (R177) -/

/-- The ticks left of an acknowledge wait: that of the acceptance, those of the frame and that of the acknowledge. -/
def waitLeft (s : State) : Nat :=
  if s.rep.txReady then 10 * s.par.txDiv + 2
  else if s.tx.busy then 10 * s.par.txDiv + 1 - (s.tx.cnt + s.par.txDiv * s.tx.bit.val)
  else 1

theorem waitLeft_of_ready {s : State} (h : s.rep.txReady = true) : waitLeft s = 10 * s.par.txDiv + 2 := if_pos h

theorem waitLeft_of_free {s : State} (h : holdsChar s = false) : waitLeft s = 1 := by
  rw [holdsChar, Bool.or_eq_false_iff] at h
  obtain ⟨hbusy, hready⟩ := h
  rw [waitLeft, hready, hbusy]
  rfl

theorem Sending.waitLeft_eq {s t : State} {j : Nat} (h : Sending s t j) : waitLeft t = 10 * s.par.txDiv + 1 - j := by
  have hready : t.rep.txReady = false := h.handshakeInv.not_clash.resolve_left (by rw [h.busy]; decide)
  rw [waitLeft, hready, h.busy, h.par, h.ticks]
  rfl

theorem sending_of_busy {s : State} (hs : Inv s) (hbusy : s.tx.busy = true) :
    ∃ j, j < 10 * s.par.txDiv ∧ Sending s s j := by
  obtain ⟨hcnt, -⟩ := hs.2
  have hbit : s.par.txDiv * s.tx.bit.val ≤ s.par.txDiv * 9 := Nat.mul_le_mul_left _ (by omega)
  exact ⟨_, by omega, hs, rfl, rfl, rfl, hbusy, rfl⟩

theorem waitLeft_pos {s : State} (hs : Inv s) : 0 < waitLeft s := by
  cases hready : s.rep.txReady with
  | true =>
    rw [waitLeft_of_ready hready]
    omega
  | false =>
    cases hbusy : s.tx.busy with
    | false =>
      rw [waitLeft_of_free (by rw [holdsChar, hready, hbusy]; rfl)]
      decide
    | true =>
      obtain ⟨j, hj, hsend⟩ := sending_of_busy hs hbusy
      rw [hsend.waitLeft_eq]
      omega

theorem waitLeft_le (s : State) : waitLeft s ≤ 10 * s.par.txDiv + 2 := by
  unfold waitLeft
  split
  · exact le_rfl
  · split <;> omega

/-- Each tick of a frame is one tick less. -/
theorem Sending.waitLeft_step {s t u : State} {j : Nat} (h : Sending s t j) (hj : j < 10 * s.par.txDiv)
    (hu : step t = next u) : waitLeft u < waitLeft t := by
  rw [h.waitLeft_eq]
  by_cases hlast : j + 1 = 10 * s.par.txDiv
  · obtain ⟨v, hv, hinv, hack, -⟩ := h.last hlast
    cases hu.symm.trans hv
    rw [waitLeft_of_free (holdsChar_eq_false (CoreInv.handshakeInv hinv.1) (.inr hack))]
    omega
  · obtain ⟨v, hv, hsend⟩ := h.succ (by omega)
    cases hu.symm.trans hv
    rw [hsend.waitLeft_eq]
    omega

theorem waitLeft_step {s t : State} (hs : Inv s) (hheld : holdsChar s = true) (h : step s = next t) :
    waitLeft t < waitLeft s := by
  cases hready : s.rep.txReady with
  | true =>
    obtain ⟨u, hu, hsend⟩ := sending_of_ready hs hready
    cases h.symm.trans hu
    rw [waitLeft_of_ready hready, hsend.waitLeft_eq]
    omega
  | false =>
    have hbusy : s.tx.busy = true := by rwa [holdsChar, hready, Bool.or_false] at hheld
    obtain ⟨j, hj, hsend⟩ := sending_of_busy hs hbusy
    exact hsend.waitLeft_step hj h

/-- The ticks left with the reference transmitter, whose character takes `10 * TX_DIV + 3` ticks (R177, R178). -/
def reportLeft (s : State) : Nat := ticksLeft s.par (10 * s.par.txDiv + 3) (waitLeft s) s.rep

theorem reportLeft_step {s t : State} (hs : Inv s) (hdone : s.rep.st ≠ St.done) (h : step s = next t) :
    reportLeft t < reportLeft s := by
  have hcore := coreTick_of_step h
  have hpar := hcore.par_eq
  have hhand : HandshakeInv s := CoreInv.handshakeInv hs.1
  cases hheld : holdsChar s with
  | true =>
    rw [reportLeft, reportLeft, hcore.rep_of_holdsChar hhand hheld, hpar]
    exact ticksLeft_quiet_lt (hhand.of_holdsChar hheld).1 (waitLeft_step hs hheld h)
  | false =>
    have hwait : waitLeft t < 10 * s.par.txDiv + 3 := by
      rw [← hpar]
      exact Nat.lt_succ_of_le (waitLeft_le t)
    have hlt := hcore.ticksLeft_lt hs.1 hheld hdone (waitLeft_pos hs) hwait
    rw [reportLeft, reportLeft, hpar]
    rwa [hpar] at hlt

theorem run_to_done {s : State} (hs : Inv s) : ∃ k t, k ≤ reportLeft s ∧ run k s = next t ∧ t.rep.st = St.done := by
  induction hn : reportLeft s using Nat.strong_induction_on generalizing s with
  | _ n ih =>
    by_cases hdone : s.rep.st = St.done
    · exact ⟨0, s, Nat.zero_le _, rfl, hdone⟩
    · obtain ⟨u, h, hu⟩ := Inv.step_next hs
      have hlt := reportLeft_step hs hdone h
      obtain ⟨k, t, hk, hrun, ht⟩ := ih _ (hn ▸ hlt) hu rfl
      exact ⟨k + 1, t, by omega, by rw [run, h]; exact hrun, ht⟩

/-! ### The other transmitters (R141) -/

/-- The ticks left were each character acknowledged in the tick that shows it. -/
def reportLeftAtOnce (s : State) : Nat := ticksLeft s.par 3 1 s.rep

theorem CoreTick.reportLeftAtOnce_of_held {s t : State} (h : CoreTick s t) (hs : HandshakeInv s)
    (hheld : holdsChar s = true) : reportLeftAtOnce t = reportLeftAtOnce s := by
  rw [reportLeftAtOnce, reportLeftAtOnce, h.rep_of_holdsChar hs hheld, h.par_eq, ticksLeft_quiet]

theorem CoreTick.reportLeftAtOnce_lt {s t : State} (h : CoreTick s t) (hs : CoreInv s) (hfree : holdsChar s = false)
    (hdone : s.rep.st ≠ St.done) : reportLeftAtOnce t < reportLeftAtOnce s :=
  h.ticksLeft_lt hs hfree hdone (by decide) (by decide)

section
variable {w : Nat → Bool} {s t : State} {n : Nat}

theorem exists_next_choice (hs : CoreInv s) (hrun : runAbstract (choices w n) s = next t) :
    ∃ u, stepAbstract (w n) t = next u ∧ runAbstract (choices w (n + 1)) s = next u := by
  obtain ⟨u, h⟩ := (runAbstract_coreInv hs hrun).stepAbstract_next (w n)
  exact ⟨u, h, by rw [runAbstract_choices_succ, hrun, andThen_next, h]⟩

/-- A character held is given up by the first choice to acknowledge it that comes, and until then the report stays where
it is. -/
theorem released_of_choice {t : State} {n : Nat} (k : Nat) (hs : CoreInv s)
    (hrun : runAbstract (choices w n) s = next t) (hheld : holdsChar t = true) (hw : w (n + k) = true) :
    ∃ m u, runAbstract (choices w m) s = next u ∧ holdsChar u = false ∧ reportLeftAtOnce u = reportLeftAtOnce t := by
  obtain ⟨u, h, hnext⟩ := exists_next_choice hs hrun
  have hhand : HandshakeInv t := (runAbstract_coreInv hs hrun).handshakeInv
  have hcore := coreTick_of_stepAbstract h
  have hleft := hcore.reportLeftAtOnce_of_held hhand hheld
  obtain ⟨hbusy, -⟩ := stepAbstract_tx h
  cases hn : w n with
  | true =>
    refine ⟨n + 1, u, hnext, ?_, hleft⟩
    rw [holdsChar, hbusy, hn, hcore.rep_of_holdsChar hhand hheld, quiet_txReady, Bool.not_true,
      Bool.and_false, Bool.or_false]
  | false =>
    cases k with
    | zero => rw [Nat.add_zero, hn] at hw; cases hw
    | succ k =>
      have hstill : holdsChar u = true := holdsChar_of_busy (by rw [hbusy, hheld, hn]; rfl)
      obtain ⟨m, v, hv, hfree, hsame⟩ := released_of_choice k hs hnext hstill (by rwa [Nat.add_right_comm])
      exact ⟨m, v, hv, hfree, hsame.trans hleft⟩

theorem exists_released (hs : CoreInv s) (hfair : FairChoices w s) (hrun : runAbstract (choices w n) s = next t) :
    ∃ m u, runAbstract (choices w m) s = next u ∧ holdsChar u = false ∧ reportLeftAtOnce u = reportLeftAtOnce t := by
  cases hheld : holdsChar t with
  | false => exact ⟨n, t, hrun, hheld, rfl⟩
  | true =>
    obtain ⟨m, hnm, hw⟩ := hfair n t hrun hheld
    exact released_of_choice (m - n) hs hrun hheld (by rwa [Nat.add_sub_cancel' hnm])

theorem runAbstract_to_done (hs : CoreInv s) (hfair : FairChoices w s) (hrun : runAbstract (choices w n) s = next t) :
    ∃ m u, runAbstract (choices w m) s = next u ∧ u.rep.st = St.done := by
  induction hleft : reportLeftAtOnce t using Nat.strong_induction_on generalizing n t with
  | _ l ih =>
    obtain ⟨m, u, hu, hfree, hsame⟩ := exists_released hs hfair hrun
    by_cases hdone : u.rep.st = St.done
    · exact ⟨m, u, hu, hdone⟩
    · obtain ⟨v, h, hv⟩ := exists_next_choice hs hu
      have hlt := (coreTick_of_stepAbstract h).reportLeftAtOnce_lt (runAbstract_coreInv hs hu) hfree hdone
      exact ih _ (by rwa [hsame, hleft] at hlt) hv rfl

end

/-- Settles O60: with the reference transmitter every tick lowers the ticks left, which are the bound at power-on; with a
fair one a wait ends at last and every tick outside the waits lowers them. -/
theorem reportCompletesWithinItsBound : Obligations.ReportCompletesWithinItsBound := by
  refine ⟨fun c ins => ?_, fun c ins w hfair => runAbstract_to_done (n := 0) (inv_init c ins).1 hfair rfl⟩
  obtain ⟨k, t, hk, hrun, hst⟩ := run_to_done (inv_init c ins)
  exact ⟨k, t, hk.trans_eq (ticksLeft_init c ins _), hrun, hst⟩

end Sys2Proof.Machine
end
